-- ==== Sys2Proof/Word.lean ====
section
/-! DEFINITION. The word types of the engine: everything is unsigned (00_scope R8) and bits are numbered from 0 at the
least significant bit (R7). The widths `ADDR_W` and `CYCLE_W` are fields of `Config.Params` as well; `addr_width` and
`cycle_width` (Laws/State.lean) hold the types to them, so that a change of one alone does not compile. -/

namespace Sys2Proof

/-- A memory cell: "unsigned 8-bit cells" (10_state R34). -/
abbrev Byte := BitVec 8

/-- An address, `IP` and `FP`: `ADDR_W` = 16 bits (00_scope R6, 10_state R32, R33). -/
abbrev Addr := BitVec 16

/-- The cycle counter and a deadline: `CYCLE_W` = 64 bits, unsigned (00_scope R6, 10_state R35, R37). -/
abbrev Cycle := BitVec 64

/-- The 3-bit index IDX of the single-bit NAND and of a `Bit(i)` decay entry (30_encoding R105, 10_state R35). -/
abbrev BitIndex := BitVec 3

end Sys2Proof
end

