-- ==== Sys2Proof/Config.lean ====
section
/-! DEFINITION. The implementation parameters of 00_scope R6, each a field with the spec's default, and the one
parameter the spec leaves OPEN inside the engine, `EOF_MODE`, as an opaque constant. `EXIT_CODES`, OPEN too, is the host's
(92_eei D25): an argument, `ExitCodes` (notes/assumptions/6.md and 22.md). -/

namespace Sys2Proof.Config

/-- The parameters of 00_scope R6 with a default value. UNVERIFIED: the spec says that the source's "numeric literals
are unaudited" (93 U12); unsafe. -/
structure Params where
  /-- `ADDR_W`: the width of an address and of `IP`, in bits. The type `Addr` has it (Word.lean). -/
  addrWidth : Nat := 16
  /-- `MEM_SIZE`: the number of cells; the addresses are 0..65535. -/
  memSize : Nat := 65536
  /-- `CYCLE_W`: the width of the cycle counter, in bits, unsigned. The type `Cycle` has it (Word.lean). -/
  cycleWidth : Nat := 64
  /-- `WIDE_SEL`: the value of NAND opcode bit 6 that selects the whole-byte form (30_encoding R104, D3). -/
  wideSel : Bool := true
  /-- `DECAY_PERIOD`. -/
  decayPeriod : Nat := 128
  /-- `COST_BR`. -/
  costBr : Nat := 1
  /-- `COST_NAND_BYTE`. -/
  costNandByte : Nat := 8
  /-- `COST_NAND_BIT`. -/
  costNandBit : Nat := 1
  /-- `COST_IO`. -/
  costIo : Nat := 1
  /-- `HALT_ADDR`: the instruction pointer that halts. -/
  haltAddr : Addr := 0xFFFF#16
  /-- `FETCH_LIMIT`: the address at which an instruction-stream fetch faults. -/
  fetchLimit : Addr := 0xFFFF#16
  /-- `IN_TRIG`: the read-trigger. -/
  inTrig : Addr := 0xFFFD#16
  /-- `OUT_TRIG`: the write-trigger. -/
  outTrig : Addr := 0xFFFE#16
  /-- `IO_CELL`: the I/O data cell. -/
  ioCell : Addr := 0xFFFF#16
  /-- `RESET_IP`. -/
  resetIp : Addr := 0x0000#16
  /-- `LOAD_BASE`. -/
  loadBase : Addr := 0x0000#16
  /-- `MAX_IMAGE`, in bytes. -/
  maxImage : Nat := 65536
  /-- `FILL`: memory beyond the image; also what an unlisted cell of the model's memory reads as. -/
  fill : Byte := 0x00#8
  /-- `DT_CAP`: entries of the decay table (D16); installing never fails. -/
  dtCap : Nat := 65536
  /-- `PTR_WRAP`: where a pointer at 0xFFFF has its high byte (20_memory R70, D5). -/
  ptrWrap : Addr := 0x0000#16
deriving DecidableEq, Repr

/-- The machine's parameters: the defaults of 00_scope R6. -/
def params : Params := {}

/-- The admitted values of `EOF_MODE` (92_eei D14). -/
inductive EofMode where
  /-- `HOLD`: the step never completes. -/
  | hold
  /-- `BYTE(v)`: the trigger completes as if byte v had been supplied. -/
  | byte (v : Byte)
deriving DecidableEq, Repr, Inhabited

/-- `EOF_MODE`: what a read-trigger does when the input stream has ended. OPEN in the spec (00_scope R6, D14, U5), so a
free value: nothing in the model constrains it (notes/assumptions/3.md). Safe: what is proved holds for every value. -/
opaque eofMode : EofMode

/-- `EXIT_CODES`: the numbers a host reports for HALTED, FATAL and a load failure. OPEN in the spec (00_scope R6, D25, U10), so
an argument of `Machine.exitCode` and nowhere fixed (notes/assumptions/22.md). -/
structure ExitCodes where
  success : Nat
  fetchError : Nat
  noBinary : Nat
deriving DecidableEq, Repr

/-- "three distinct values" (00_scope R6). -/
def ExitCodes.distinct (c : ExitCodes) : Bool :=
  c.success != c.fetchError && c.success != c.noBinary && c.fetchError != c.noBinary

end Sys2Proof.Config
end

