-- ==== Sys2Proof/Syntax.lean ====
section
/-! DEFINITION. The instructions: one constructor per row of spec/opcode_table.json (30_encoding R108), with every field of
its format, the ignored bits among them (R102, R106, R107), so that no bit of an encoding is lost. -/

namespace Sys2Proof

/-- The six instructions. A flag `rs` or `rd` that is true redirects that operand once (30_encoding R109). The fields
named `ign` and `ignRd` hold bits the spec gives no meaning (R111): they have no effect. -/
inductive Instr where
  /-- BR, 41_branch R160: `ign` is opcode bits 5..0. -/
  | br (ign : BitVec 6) (target : Addr)
  /-- BR.R, 41_branch R161: the target is redirected once. -/
  | brR (ign : BitVec 6) (target : Addr)
  /-- NANDW, 42_nand_io R186: `ign` is opcode bits 4..2. -/
  | nandw (ign : BitIndex) (rs rd : Bool) (src dst : Addr)
  /-- NANDW.S, 42_nand_io R187: `ign` is opcode bits 4..2 and `ignRd` is opcode bit 0. -/
  | nandwS (ign : BitIndex) (rs ignRd : Bool) (addr : Addr)
  /-- NANDBIT, 42_nand_io R188: `idx` is opcode bits 4..2. -/
  | nandbit (idx : BitIndex) (rs rd : Bool) (src dst : Addr)
  /-- NANDBIT.S, 42_nand_io R189: `ignRd` is opcode bit 0. -/
  | nandbitS (idx : BitIndex) (rs ignRd : Bool) (addr : Addr)
deriving DecidableEq, Repr

/-- The length in bytes: formats B and N1 have 3, format N2 has 5 (30_encoding R100). -/
def Instr.length : Instr → Nat
  | .br _ _ => 3
  | .brR _ _ => 3
  | .nandw _ _ _ _ _ => 5
  | .nandwS _ _ _ _ => 3
  | .nandbit _ _ _ _ _ => 5
  | .nandbitS _ _ _ _ => 3

/-- The class of 30_encoding R101. -/
def Instr.isBranch : Instr → Bool
  | .br _ _ => true
  | .brR _ _ => true
  | .nandw _ _ _ _ _ => false
  | .nandwS _ _ _ _ => false
  | .nandbit _ _ _ _ _ => false
  | .nandbitS _ _ _ _ => false

end Sys2Proof
end

