-- ==== Sys2Proof/WellFormed.lean ====
section
/-! DEFINITION. Well-formed instructions: those the spec's own notation can write. "Ignored bits are assembled as 0"
(30_encoding R113; R102: "assemblers write 0"). The types of the fields hold every other bound (3-bit IDX, 16-bit
addresses). The machine does not ask for well-formedness: it decodes and runs EVERY opcode byte (R111), and a strict user of
93 U2, who refuses a word with a non-zero ignored bit, asks this check (notes/assumptions/26.md). -/

namespace Sys2Proof

/-- Every ignored bit is 0. One check per field the spec ignores. -/
def Instr.wellFormed : Instr → Bool
  | .br ign _ => ign == 0#6
  | .brR ign _ => ign == 0#6
  | .nandw ign _ _ _ _ => ign == 0#3
  | .nandwS ign _ ignRd _ => ign == 0#3 && !ignRd
  | .nandbit _ _ _ _ _ => true
  | .nandbitS _ _ ignRd _ => !ignRd

/-- The same instruction with its ignored bits 0: what an assembler writes for it. -/
def Instr.canonical : Instr → Instr
  | .br _ t => .br 0#6 t
  | .brR _ t => .brR 0#6 t
  | .nandw _ rs rd src dst => .nandw 0#3 rs rd src dst
  | .nandwS _ rs _ a => .nandwS 0#3 rs false a
  | .nandbit idx rs rd src dst => .nandbit idx rs rd src dst
  | .nandbitS idx rs _ a => .nandbitS idx rs false a

end Sys2Proof
end

