-- ==== Sys2Proof/Decode.lean ====
section
/-! DEFINITION. The decoder, total on any bytes, and after it the encoder (30_encoding R100 to R111). Both take the value of
`WIDE_SEL` (R104); `decode` and `encode` are the machine's, at `Config.params.wideSel`. -/

namespace Sys2Proof

/-- A 16-bit address from its two bytes, low byte first: `b_hi ++ b_lo` (30_encoding R109, 20_memory R68). -/
def addrOfBytes (lo hi : Byte) : Addr := hi ++ lo

/-- The low byte of an address. -/
def loByte (a : Addr) : Byte := a.extractLsb' 0 8

/-- The high byte of an address. -/
def hiByte (a : Addr) : Byte := a.extractLsb' 8 8

/-- The length from the opcode byte alone: 3 if `op[7] = 0` or `op[5] = 1`, else 5 (30_encoding R110). -/
def instrLength (op : Byte) : Nat :=
  if op[7] = false ∨ op[5] = true then 3 else 5

/-- RS, opcode bit 1: redirect the source operand (30_encoding R103). -/
def opRedirectsSource (op : Byte) : Bool := op[1]

/-- RD, opcode bit 0: redirect the destination operand (30_encoding R103). -/
def opRedirectsDest (op : Byte) : Bool := op[0]

/-- IDX, `op[4:2]` with `op[4]` most significant (30_encoding R105). UNVERIFIED in the source, the spec's decision D4;
unsafe (notes/assumptions/8.md). -/
def opIndex (op : Byte) : BitIndex := op.extractLsb' 2 3

/-- The opcode map of 30_encoding R108, with the class of R101 and the fields of R102 and R103. `a` is the first address
operand; `b` is the second, used by the two-operand NAND forms only. -/
def decodeOperands (wideSel : Bool) (op : Byte) (a b : Addr) : Instr :=
  if op[7] = false then
    if op[6] = false then .br (op.extractLsb' 0 6) a
    else .brR (op.extractLsb' 0 6) a
  else if op[6] = wideSel then
    if op[5] = false then .nandw (opIndex op) (opRedirectsSource op) (opRedirectsDest op) a b
    else .nandwS (opIndex op) (opRedirectsSource op) (opRedirectsDest op) a
  else
    if op[5] = false then .nandbit (opIndex op) (opRedirectsSource op) (opRedirectsDest op) a b
    else .nandbitS (opIndex op) (opRedirectsSource op) (opRedirectsDest op) a

/-- Why bytes are no instruction. No opcode is illegal (30_encoding R111): only too few bytes are rejected. -/
inductive DecodeError where
  /-- There is no opcode byte. -/
  | noOpcode
  /-- The bytes end inside the first address operand. -/
  | truncatedFirstAddress
  /-- The bytes end inside the second address operand of a 5-byte form. -/
  | truncatedSecondAddress
deriving DecidableEq, Repr

/-- The decoder: the instruction at the head of the bytes, and the bytes after it. -/
def decodeWith (wideSel : Bool) : List Byte → Except DecodeError (Instr × List Byte)
  | [] => .error .noOpcode
  | op :: lo :: hi :: rest =>
    if instrLength op = 3 then .ok (decodeOperands wideSel op (addrOfBytes lo hi) 0#16, rest)
    else match rest with
      | lo2 :: hi2 :: rest2 => .ok (decodeOperands wideSel op (addrOfBytes lo hi) (addrOfBytes lo2 hi2), rest2)
      | _ => .error .truncatedSecondAddress
  | _ => .error .truncatedFirstAddress

/-- The machine's decoder. -/
def decode (bytes : List Byte) : Except DecodeError (Instr × List Byte) :=
  decodeWith Config.params.wideSel bytes

/-- The opcode byte of a NAND: class 1, then W, S, IDX, RS, RD (30_encoding R103). -/
def nandOpcode (w s : Bool) (idx : BitIndex) (rs rd : Bool) : Byte :=
  1#1 ++ BitVec.ofBool w ++ BitVec.ofBool s ++ idx ++ BitVec.ofBool rs ++ BitVec.ofBool rd

/-- The two bytes of an address, low byte first (30_encoding R109). -/
def addrBytes (a : Addr) : List Byte := [loByte a, hiByte a]

/-- The encoder: the bytes of an instruction, from the same formats (30_encoding R102, R106, R107). -/
def encodeWith (wideSel : Bool) : Instr → List Byte
  | .br ign t => (0#2 ++ ign) :: addrBytes t
  | .brR ign t => (1#2 ++ ign) :: addrBytes t
  | .nandw ign rs rd src dst => nandOpcode wideSel false ign rs rd :: addrBytes src ++ addrBytes dst
  | .nandwS ign rs ignRd a => nandOpcode wideSel true ign rs ignRd :: addrBytes a
  | .nandbit idx rs rd src dst => nandOpcode (!wideSel) false idx rs rd :: addrBytes src ++ addrBytes dst
  | .nandbitS idx rs ignRd a => nandOpcode (!wideSel) true idx rs ignRd :: addrBytes a

/-- The machine's encoder. -/
def encode (i : Instr) : List Byte := encodeWith Config.params.wideSel i

/-- Byte `k` of the number `w`, whose bit 0 is the least significant bit of the first byte. -/
def byteOf (w k : Nat) : Byte := BitVec.ofNat 8 (w / 2 ^ (8 * k))

/-- The bytes of an instruction whose low `nbits` bits are `w`: five bytes, the longest instruction, every bit above
`nbits` zero, the first byte at the lowest address. -/
def tableBytes (nbits w : Nat) : List Byte :=
  let v := w % 2 ^ nbits
  [byteOf v 0, byteOf v 1, byteOf v 2, byteOf v 3, byteOf v 4]

/-- What the decoder reads from an instruction whose bits are `w`, numbered as spec/opcode_table.json numbers them. -/
def decodeTableWord (nbits w : Nat) : Option Instr :=
  match decode (tableBytes nbits w) with
  | .ok (i, _) => some i
  | .error _ => none

end Sys2Proof
end

