-- ==== Sys2Proof/Machine/State.lean ====
section
/-! DEFINITION. The state of the engine as plain data: everything 10_state R30 lists, and the host's side of the two byte
channels (R40). `FP` exists only while one instruction is decoded (R30, R33) and is no field. -/

namespace Sys2Proof.Machine

/-- The physical memory: (address, byte) pairs. An unlisted address reads as `Config.params.fill`, 0x00, which the spec
gives (10_state R44, 70_reset R250). The canonical form is `Memory.wf` (Machine/Ops.lean). -/
abbrev Memory := List Host.Cell

/-- What a decay entry takes with it: the "entire byte" or one bit (10_state R35). -/
inductive Granularity where
  | byte
  | bit (i : BitIndex)
deriving DecidableEq, Repr

/-- A decay entry: the absolute cycle count at which it is due, and its granularity (10_state R35). -/
structure DecayEntry where
  deadline : Cycle
  gran : Granularity
deriving DecidableEq, Repr

/-- The decay table: (address, entry) pairs, at most one per address (10_state R35). The canonical form is
`DecayTable.wf` (Machine/Ops.lean). -/
abbrev DecayTable := List (Nat × DecayEntry)

/-- The control state of 10_state R38 and 40_fetch_decode R130. Its value 3 is never produced (93 U11). -/
inductive Ctl where
  | running
  | halted
  | fatal
deriving DecidableEq, Repr

/-- Why the model stops with a fault: never. The engine's one exception, the fetch error, ENTERS the FATAL state, which
is a next state (60_exceptions R220, R221); every address exists (10_state R43). No constructor: safe. -/
inductive Fault where
deriving DecidableEq, Repr

/-- Why the model refuses a step. -/
inductive Refusal where
  /-- Raised by `exec`'s arm of an instruction that has no meaning. No arm raises it: every instruction has its meaning.
  Safe. -/
  | notModelled (mnemonic : String)
  /-- Raised by an instruction whose increment of `CYCLE` would pass 2^64 - 1: the spec puts it outside its behaviour and
  asks for a refusal before the addition (10_state R37, 92_eei D11, 93 U4). Safe (notes/assumptions/4.md). -/
  | cycleOverflow
  /-- Raised by a NAND proper whose deadline would pass 2^64 - 1 (42_nand_io R193, 92_eei D11, 93 U4). Safe
  (notes/assumptions/4.md). -/
  | deadlineOverflow
deriving DecidableEq, Repr

/-- The state of the machine. -/
structure State where
  /-- `PHYS` (10_state R34). -/
  phys : Memory
  /-- `DT` (10_state R35). -/
  dt : DecayTable
  /-- `FLAG` (10_state R36). -/
  flag : Bool
  /-- `CYCLE` (10_state R37). -/
  cycle : Cycle
  /-- `IP` (10_state R32): the opcode address of the instruction to run or running. -/
  ip : Addr
  /-- `STATE` (10_state R38). -/
  ctl : Ctl
  /-- `FAULT_ADDR` (10_state R39). -/
  faultAddr : Addr
  /-- The bytes the host has supplied on the input channel and the engine has not taken, the next one first (R40, D2).
  The model's own field (notes/assumptions/1.md). -/
  input : List Byte
  /-- The host's input stream has ended: after `input` no byte comes (D14). The model's own field. -/
  inputEnd : Bool
  /-- The host accepts a byte on the output channel (D15). The model's own field. -/
  outReady : Bool
  /-- The input history: the bytes the engine has taken, oldest first (R40, R44). -/
  inHist : List Byte
  /-- The output history: the bytes the engine has handed over, oldest first (R40, R44). -/
  outHist : List Byte
deriving DecidableEq, Repr

/-- The machine right after reset, constructed from the empty image (10_state R44, 70_reset R250, R251). A program is
loaded from outside (Machine/HostPort.lean, `loadImage`; notes/assumptions/19.md). The three host fields are the model's
DESIGN CHOICE: connected, accepting, nothing supplied; unsafe (notes/assumptions/1.md). -/
def State.reset : State where
  phys := []
  dt := []
  flag := false
  cycle := 0#64
  ip := Config.params.resetIp
  ctl := .running
  faultAddr := 0x0000#16
  input := []
  inputEnd := false
  outReady := true
  inHist := []
  outHist := []

end Sys2Proof.Machine
end

