-- ==== Sys2Proof/Machine/Ops.lean ====
section
/-! DEFINITION. The named operations over memory, the decay table, the registers and the channels, and the taking of the
engine's one exception. Every reader of memory uses `memRead`, the logical read (20_memory R62). -/

namespace Sys2Proof.Machine

/-! ### Sparse tables -/

/-- The value listed at `a`, if any. -/
def sparseFind {α : Type} : List (Nat × α) → Nat → Option α
  | [], _ => none
  | (k, v) :: rest, a => if a = k then some v else sparseFind rest a

/-- List `v` at `a`, in place of what was listed there, keeping the addresses rising. -/
def sparseInsert {α : Type} (a : Nat) (v : α) : List (Nat × α) → List (Nat × α)
  | [] => [(a, v)]
  | (k, w) :: rest =>
    if a < k then (a, v) :: (k, w) :: rest
    else if a = k then (a, v) :: rest
    else (k, w) :: sparseInsert a v rest

/-- List nothing at `a`. -/
def sparseErase {α : Type} (a : Nat) : List (Nat × α) → List (Nat × α)
  | [] => []
  | (k, w) :: rest => if a = k then sparseErase a rest else (k, w) :: sparseErase a rest

/-- The addresses are strictly rising and none is below `lo`. -/
def risingFrom {α : Type} : Nat → List (Nat × α) → Bool
  | _, [] => true
  | lo, (k, _) :: rest => decide (lo ≤ k) && risingFrom (k + 1) rest

/-! ### The physical array `PHYS` -/

/-- The physical byte at an address; an unlisted address reads as the fill value (10_state R44). -/
def Memory.read (m : Memory) (a : Nat) : Byte := (sparseFind m a).getD Config.params.fill

/-- Put a byte at an address. Writing the fill value lists nothing, so that equal memories are equal data. -/
def Memory.write (m : Memory) (a : Nat) (v : Byte) : Memory :=
  if v = Config.params.fill then sparseErase a m else sparseInsert a v m

/-- The canonical form: addresses strictly rising, inside the address space, none listed at the fill value. -/
def Memory.wf (m : Memory) : Bool :=
  risingFrom 0 m && m.all fun c => decide (c.1 < Config.params.memSize) && c.2 != Config.params.fill

/-- The canonical form of the decay table: addresses strictly rising (so at most one entry per address, 10_state R35) and
inside the address space. -/
def DecayTable.wf (t : DecayTable) : Bool :=
  risingFrom 0 t && t.all fun c => decide (c.1 < Config.params.memSize)

/-- `PHYS[a]` (10_state R34). -/
def physAt (s : State) (a : Addr) : Byte := Memory.read s.phys a.toNat

/-- `DT[a]` (10_state R35). -/
def entryAt (s : State) (a : Addr) : Option DecayEntry := sparseFind s.dt a.toNat

/-! ### Decay and the logical read -/

/-- The byte with the entry's byte or bit forced to 0 (20_memory R60). -/
def decayed (e : DecayEntry) (v : Byte) : Byte :=
  match e.gran with
  | .byte => 0x00#8
  | .bit i => v &&& ~~~(1#8 <<< i.toNat)

/-- An entry is due at its deadline cycle itself: `deadline <= CYCLE`, unsigned (20_memory R60). -/
def isDue (e : DecayEntry) (c : Cycle) : Bool := decide (e.deadline ≤ c)

/-- The logical value of cell `a` at cycle count `c`, without side effects (20_memory R60). -/
def logicalAt (s : State) (c : Cycle) (a : Addr) : Byte :=
  match entryAt s a with
  | some e => if isDue e c then decayed e (physAt s a) else physAt s a
  | none => physAt s a

/-- `LV(a)`, the logical value at the current cycle count (20_memory R60). -/
def logicalValue (s : State) (a : Addr) : Byte := logicalAt s s.cycle a

/-- The raw write `MemWrite(a, 1, v)`: it touches no decay entry (20_memory R64, D8; notes/assumptions/12.md). -/
def memWrite (s : State) (a : Addr) (v : Byte) : State :=
  { s with phys := Memory.write s.phys a.toNat v }

/-- `ScheduleDecay(a, d, g)`: install or replace the entry of `a` (20_memory R65). It never fails (R78, D16). -/
def scheduleDecay (s : State) (a : Addr) (d : Cycle) (g : Granularity) : State :=
  { s with dt := sparseInsert a.toNat ⟨d, g⟩ s.dt }

/-- `DT[a] <- none`. -/
def dropEntry (s : State) (a : Addr) : State :=
  { s with dt := sparseErase a.toNat s.dt }

/-- The side effect of a logical read: a due entry is applied to the physical cell and removed (20_memory R61). -/
def collapse (s : State) (a : Addr) : State :=
  match entryAt s a with
  | some e => if isDue e s.cycle then dropEntry (memWrite s a (decayed e (physAt s a))) a else s
  | none => s

/-- The logical read `MemRead(a, 1)`: collapse, then the physical cell's value (20_memory R61). -/
def memRead (s : State) (a : Addr) : Byte × State :=
  (physAt (collapse s a) a, collapse s a)

/-! ### Registers -/

/-- `FLAG <- b` (10_state R36). -/
def setFlag (s : State) (b : Bool) : State := { s with flag := b }

/-- `CYCLE + n`, or nothing where it would pass the `CYCLE_W` bits of the counter, 2^64 - 1 (10_state R37, D11;
notes/assumptions/4.md). A deadline is computed with the same addition (42_nand_io R193). -/
def addCycles (c : Cycle) (n : Nat) : Option Cycle :=
  if c.toNat + n < 2 ^ Config.params.cycleWidth then some (c + BitVec.ofNat _ n) else none

/-- The end of an instruction: `IP` and `CYCLE` get their new values (40_fetch_decode R138, R144). -/
def retire (s : State) (ip : Addr) (c : Cycle) : State := { s with ip := ip, cycle := c }

/-- The halt transition: `STATE <- HALTED`, nothing else (40_fetch_decode R131). -/
def enterHalted (s : State) : State := { s with ctl := .halted }

/-! ### The one exception -/

/-- `raise FetchError(a)`: the engine enters FATAL and records the address; `IP`, `FLAG`, `CYCLE` are unchanged
(60_exceptions R221). There is no handler and no return from it (R227, R228); only reset leaves FATAL. -/
def raiseFetchError (s : State) (a : Addr) : State := { s with ctl := .fatal, faultAddr := a }

/-! ### The host's channels -/

/-- `InByte()`: the next byte of the input channel, taken in order, or nothing while the engine must hold
(42_nand_io R184, D15). At the end of the stream `EOF_MODE` decides (D14); a byte it supplies is taken as any other and
enters the input history (notes/assumptions/3.md). -/
def takeInput (s : State) : Option (Byte × State) :=
  match s.input with
  | b :: rest => some (b, { s with input := rest, inHist := s.inHist ++ [b] })
  | [] =>
    if s.inputEnd then
      match Config.eofMode with
      | .byte v => some (v, { s with inHist := s.inHist ++ [v] })
      | .hold => none
    else none

/-- `OutByte(b)`, once the host accepts (42_nand_io R185, D29). -/
def emitByte (s : State) (b : Byte) : State := { s with outHist := s.outHist ++ [b] }

/-- An access to the port at this destination must hold: no byte to take, or none accepted (D15, U16). -/
def portHolds (dst : Addr) (s : State) : Bool :=
  (dst == Config.params.inTrig && (takeInput s).isNone) || (dst == Config.params.outTrig && !s.outReady)

end Sys2Proof.Machine
end

