-- ==== Sys2Proof/Machine/Operands.lean ====
section
/-! DEFINITION. The operand forms: an address used as fetched, or redirected once (30_encoding R109, 40_fetch_decode R135,
R136), and the fall-through address. -/

namespace Sys2Proof.Machine

/-- The address of a pointer's high byte: `(a + 1) mod 2^16`; at the last cell, 0xFFFF, that is `PTR_WRAP`, 0x0000 (20_memory R70, D5;
notes/assumptions/10.md). -/
def pointerHighAddr (a : Addr) : Addr :=
  if a.toNat + 1 = Config.params.memSize then Config.params.ptrWrap else a + 1#16

/-- `Read16(a)`: two logical reads, low byte first; it never faults (40_fetch_decode R135). -/
def read16 (s : State) (a : Addr) : Addr × State :=
  let lo := memRead s a
  let hi := memRead lo.2 (pointerHighAddr a)
  (addrOfBytes lo.1 hi.1, hi.2)

/-- `Resolve(a, r)`: redirect once if `r` (40_fetch_decode R135). -/
def resolve (s : State) (r : Bool) (a : Addr) : Addr × State :=
  if r then read16 s a else (a, s)

/-- The resolved operand addresses of a NAND and the state their reads leave. -/
structure Operands where
  src : Addr
  dst : Addr
  st : State
deriving DecidableEq, Repr

/-- Format N2: source, then destination, each redirected on its own (42_nand_io R180). -/
def operandsTwo (s : State) (rs rd : Bool) (a b : Addr) : Operands :=
  let x := resolve s rs a
  let y := resolve x.2 rd b
  ⟨x.1, y.1, y.2⟩

/-- Format N1: the destination is the source after its redirection; RD is not applied (42_nand_io R180). -/
def operandsOne (s : State) (rs : Bool) (a : Addr) : Operands :=
  let x := resolve s rs a
  ⟨x.1, x.1, x.2⟩

/-- `FP` after an instruction of `len` bytes at `IP`, the fall-through address; nothing where one of its bytes would lie at
the fetch limit, where the fetch raises the fetch error (40_fetch_decode R133, R141, R142). -/
def fallThrough (s : State) (len : Nat) : Option Addr :=
  if s.ip.toNat + len ≤ Config.params.fetchLimit.toNat then some (s.ip + BitVec.ofNat _ len) else none

/-- The instruction accesses a channel that is not ready, so that its step holds (42_nand_io R184, R185, D15). The
destination is the resolved one (R183). -/
def waits (i : Instr) (s : State) : Bool :=
  match i with
  | .br _ _ => false
  | .brR _ _ => false
  | .nandw _ rs rd src dst => portHolds (operandsTwo s rs rd src dst).dst s
  | .nandwS _ rs _ a => portHolds (operandsOne s rs a).dst s
  | .nandbit _ rs rd src dst => portHolds (operandsTwo s rs rd src dst).dst s
  | .nandbitS _ rs _ a => portHolds (operandsOne s rs a).dst s

end Sys2Proof.Machine
end

