-- ==== Sys2Proof/Machine/Branch.lean ====
section
/-! DEFINITION. The conditional branch: BR and BR.R (41_branch). There is no unconditional branch (90_conflicts C3). -/

namespace Sys2Proof.Machine

/-- `ExecBranch`: the target is resolved whether or not the branch is taken, `FLAG` is read and not written, and `CYCLE`
grows by `COST_BR` (41_branch R160, R161). An instruction that does not fit below the fetch limit raises the fetch error
(R160: "when the opcode is at 0xFFFD or 0xFFFE"; notes/assumptions/18.md). -/
def branch (redirect : Bool) (target : Addr) (s : State) : Host.Outcome State Fault Refusal :=
  match fallThrough s 3 with
  | none => .next (raiseFetchError s Config.params.fetchLimit)
  | some fp =>
    let r := resolve s redirect target
    match addCycles s.cycle Config.params.costBr with
    | none => .refused .cycleOverflow
    | some c => .next (retire r.2 (if s.flag then r.1 else fp) c)

/-- BR: branch if FLAG, direct target (41_branch R160). The ignored bits have no effect (30_encoding R111). -/
def execBr (_ign : BitVec 6) (target : Addr) (s : State) : Host.Outcome State Fault Refusal :=
  branch false target s

/-- BR.R: branch if FLAG, target redirected exactly once (41_branch R161, 90_conflicts C1). -/
def execBrR (_ign : BitVec 6) (target : Addr) (s : State) : Host.Outcome State Fault Refusal :=
  branch true target s

end Sys2Proof.Machine
end

