-- ==== Sys2Proof/Machine/Flags.lean ====
section
/-! DEFINITION. The NAND itself and every flag computation: the result byte, `FLAG` and the cycle cost of each width
(42_nand_io R186, R188, R191). A NAND's width is the granularity of the decay it schedules: `Byte`, or `Bit(IDX)`. -/

namespace Sys2Proof.Machine

/-- The whole-byte result `~(s & d)` (42_nand_io R186). -/
def nandByteResult (s d : Byte) : Byte := ~~~(s &&& d)

/-- The result bit `NOT (s[IDX] AND d[IDX])` (42_nand_io R188). -/
def nandResultBit (i : BitIndex) (s d : Byte) : Bool :=
  !(s.getLsbD i.toNat && d.getLsbD i.toNat)

/-- The single-bit result `(d & ~(1 << IDX)) | (rb << IDX)`: the other seven bits are `d`'s (42_nand_io R188). -/
def nandBitResult (i : BitIndex) (s d : Byte) : Byte :=
  (d &&& ~~~(1#8 <<< i.toNat)) ||| ((BitVec.ofBool (nandResultBit i s d)).setWidth 8 <<< i.toNat)

/-- The byte a NAND writes. -/
def nandResult (g : Granularity) (s d : Byte) : Byte :=
  match g with
  | .byte => nandByteResult s d
  | .bit i => nandBitResult i s d

/-- `FLAG` after a NAND: result byte not 0x00, or the result bit (10_state R36, 42_nand_io R186, R188). -/
def nandFlag (g : Granularity) (s d : Byte) : Bool :=
  match g with
  | .byte => nandByteResult s d != 0x00#8
  | .bit i => nandResultBit i s d

/-- The cycles of a NAND: `COST_NAND_BYTE` or `COST_NAND_BIT` (10_state R37). -/
def nandCost (g : Granularity) : Nat :=
  match g with
  | .byte => Config.params.costNandByte
  | .bit _ => Config.params.costNandBit

/-- `FLAG` after either I/O trigger (42_nand_io R184, R185). -/
def ioFlag : Bool := true

end Sys2Proof.Machine
end

