-- ==== Sys2Proof/Machine/Nand.lean ====
section
/-! DEFINITION. The NAND handler: dispatch by resolved destination, the two I/O triggers, the NAND proper, and the four
instructions (42_nand_io). -/

namespace Sys2Proof.Machine

/-- `InTrigger()`: a raw write of the input byte into the I/O cell, whose decay entry stays as it was (42_nand_io R184,
D8). While no byte is supplied the step holds: the state stays as it was before the instruction, `held` (D15, U16). -/
def inTrigger (fp : Addr) (held s : State) : Host.Outcome State Fault Refusal :=
  match takeInput s with
  | none => .next held
  | some (b, s1) =>
    match addCycles s1.cycle Config.params.costIo with
    | none => .refused .cycleOverflow
    | some c => .next (retire (setFlag (memWrite s1 Config.params.ioCell b) ioFlag) fp c)

/-- `OutTrigger()`: the I/O cell's logical value, read at the starting `CYCLE`, goes to the host (42_nand_io R185). While the
host does not accept the step holds (D15, U16). -/
def outTrigger (fp : Addr) (held s : State) : Host.Outcome State Fault Refusal :=
  if s.outReady then
    let v := memRead s Config.params.ioCell
    match addCycles s.cycle Config.params.costIo with
    | none => .refused .cycleOverflow
    | some c => .next (retire (setFlag (emitByte v.2 v.1) ioFlag) fp c)
  else .next held

/-- `NandByte` and `NandBit`: source read, destination read, raw write, `FLAG`, `CYCLE`, then the decay entry with the
deadline `CYCLE + DECAY_PERIOD` after the increment (42_nand_io R186, R188, R190, D7; notes/assumptions/11.md). -/
def nandProper (g : Granularity) (src dst fp : Addr) (s : State) : Host.Outcome State Fault Refusal :=
  let x := memRead s src
  let y := memRead x.2 dst
  match addCycles s.cycle (nandCost g) with
  | none => .refused .cycleOverflow
  | some c =>
    match addCycles c Config.params.decayPeriod with
    | none => .refused .deadlineOverflow
    | some d =>
      let w := setFlag (memWrite y.2 dst (nandResult g x.1 y.1)) (nandFlag g x.1 y.1)
      .next (scheduleDecay (retire w fp c) dst d g)

/-- `Dispatch`: on the resolved destination address, before any data read (42_nand_io R183, D9; notes/assumptions/13.md). -/
def dispatch (g : Granularity) (fp : Addr) (held : State) (o : Operands) : Host.Outcome State Fault Refusal :=
  if o.dst = Config.params.inTrig then inTrigger fp held o.st
  else if o.dst = Config.params.outTrig then outTrigger fp held o.st
  else nandProper g o.src o.dst fp o.st

/-- `ExecNand` for format N2 (42_nand_io R180, R181). The fetch error of an instruction that does not fit is R186's and
R188's (opcode at 0xFFFB..0xFFFE; notes/assumptions/18.md). -/
def nandTwo (g : Granularity) (rs rd : Bool) (src dst : Addr) (s : State) : Host.Outcome State Fault Refusal :=
  match fallThrough s 5 with
  | none => .next (raiseFetchError s Config.params.fetchLimit)
  | some fp => dispatch g fp s (operandsTwo s rs rd src dst)

/-- `ExecNand` for format N1 (42_nand_io R180, R181). The fetch error of an instruction that does not fit is R187's and
R189's (opcode at 0xFFFD or 0xFFFE; notes/assumptions/18.md). -/
def nandOne (g : Granularity) (rs : Bool) (a : Addr) (s : State) : Host.Outcome State Fault Refusal :=
  match fallThrough s 3 with
  | none => .next (raiseFetchError s Config.params.fetchLimit)
  | some fp => dispatch g fp s (operandsOne s rs a)

/-- NANDW: whole-byte NAND, two operands (42_nand_io R186). IDX is ignored (30_encoding R105). -/
def execNandw (_ign : BitIndex) (rs rd : Bool) (src dst : Addr) (s : State) : Host.Outcome State Fault Refusal :=
  nandTwo .byte rs rd src dst s

/-- NANDW.S: whole-byte NAND, destination = source (42_nand_io R187). IDX and RD are ignored (30_encoding R105, R106). -/
def execNandwS (_ign : BitIndex) (rs _ignRd : Bool) (a : Addr) (s : State) : Host.Outcome State Fault Refusal :=
  nandOne .byte rs a s

/-- NANDBIT: single-bit NAND, two operands (42_nand_io R188). -/
def execNandbit (idx : BitIndex) (rs rd : Bool) (src dst : Addr) (s : State) : Host.Outcome State Fault Refusal :=
  nandTwo (.bit idx) rs rd src dst s

/-- NANDBIT.S: single-bit NAND, destination = source (42_nand_io R189). RD is ignored (30_encoding R106). -/
def execNandbitS (idx : BitIndex) (rs _ignRd : Bool) (a : Addr) (s : State) : Host.Outcome State Fault Refusal :=
  nandOne (.bit idx) rs a s

end Sys2Proof.Machine
end

