-- ==== Sys2Proof/Machine/Dispatch.lean ====
section
/-! DEFINITION. exec: one arm per instruction, each one direct call of its meaning. -/

namespace Sys2Proof.Machine

def exec (i : Instr) (s : State) : Host.Outcome State Fault Refusal :=
  match i with
  | .br ign target => Sys2Proof.Machine.execBr ign target s
  | .brR ign target => Sys2Proof.Machine.execBrR ign target s
  | .nandw ign rs rd src dst => Sys2Proof.Machine.execNandw ign rs rd src dst s
  | .nandwS ign rs ignRd addr => Sys2Proof.Machine.execNandwS ign rs ignRd addr s
  | .nandbit idx rs rd src dst => Sys2Proof.Machine.execNandbit idx rs rd src dst s
  | .nandbitS idx rs ignRd addr => Sys2Proof.Machine.execNandbitS idx rs ignRd addr s

end Sys2Proof.Machine
end

