-- ==== Sys2Proof/Machine/Fetch.lean ====
section
/-! DEFINITION. The instruction fetch unit (40_fetch_decode section 2): `FP` is threaded from fetch to fetch, every byte is a
logical read, and a fetch at the limit raises the fetch error. -/

namespace Sys2Proof.Machine

/-- What a fetch answers: a value with the fetch pointer and state after it, or the state after the fetch error. -/
inductive Fetched (α : Type) where
  | ok (value : α) (fp : Addr) (s : State)
  | error (s : State)
deriving DecidableEq, Repr

/-- `FetchByte()` (40_fetch_decode R133). The collapses made before a fetch error are kept (60_exceptions R224, D26;
notes/assumptions/16.md). -/
def fetchByte (fp : Addr) (s : State) : Fetched Byte :=
  if fp = Config.params.fetchLimit then .error (raiseFetchError s fp)
  else .ok (memRead s fp).1 (fp + 1#16) (memRead s fp).2

/-- `FetchAddr()`: low byte, then high byte (40_fetch_decode R134). -/
def fetchAddr (fp : Addr) (s : State) : Fetched Addr :=
  match fetchByte fp s with
  | .error t => .error t
  | .ok lo fp1 s1 =>
    match fetchByte fp1 s1 with
    | .error t => .error t
    | .ok hi fp2 s2 => .ok (addrOfBytes lo hi) fp2 s2

/-- The operand addresses after the opcode `op`. Between the two addresses of a 5-byte form stands the redirection of the
source, in the order of 20_memory R63 and 42_nand_io R180, R182: its collapses happen even if the second address faults.
The meaning resolves the source again; a second read at the same `CYCLE` gives the same address and changes nothing
(20_memory R74; notes/assumptions/17.md). -/
def fetchOperands (op : Byte) (fp : Addr) (s : State) : Fetched Instr :=
  match fetchAddr fp s with
  | .error t => .error t
  | .ok a fp1 s1 =>
    if instrLength op = 3 then .ok (decodeOperands Config.params.wideSel op a 0#16) fp1 s1
    else
      match fetchAddr fp1 (resolve s1 (opRedirectsSource op) a).2 with
      | .error t => .error t
      | .ok b fp2 s2 => .ok (decodeOperands Config.params.wideSel op a b) fp2 s2

/-- The instruction at `IP`: `FP <- IP`, the opcode byte, its operands (40_fetch_decode R132, R137). -/
def fetchInstr (s : State) : Fetched Instr :=
  match fetchByte s.ip s with
  | .error t => .error t
  | .ok op fp1 s1 => fetchOperands op fp1 s1

end Sys2Proof.Machine
end

