-- ==== Sys2Proof/Machine/HostPort.lean ====
section
/-! DEFINITION. The host's side of the boundary (92_eei D2): program load, the channels' events, the status outputs, the
debug port and the exit statuses. Nothing here is part of a step. -/

namespace Sys2Proof.Machine

/-- Raw bytes at consecutive addresses from `a` on. -/
def storeBytes : List Byte → Addr → Memory → Memory
  | [], _, m => m
  | b :: rest, a, m => storeBytes rest (a + 1#16) (Memory.write m a.toNat b)

/-- `load(image)`, the only reset (70_reset R250): the engine constructed from an image of at most `MAX_IMAGE` bytes; a longer
one is refused by the host, the "no binary" outcome (R251, D21). Loaded bytes have no decay entry (20_memory R77). -/
def loadImage (image : List Byte) : Option State :=
  if image.length ≤ Config.params.maxImage then
    some { State.reset with phys := storeBytes image Config.params.loadBase [] }
  else none

/-- What the host may do to the channels, between steps only (10_state R40, D2, D15). -/
inductive HostEvent where
  /-- The host supplies the next input byte. -/
  | supply (b : Byte)
  /-- The host's input stream ends (D14). -/
  | endInput
  /-- The host becomes ready, or not ready, to accept an output byte. -/
  | setReady (ready : Bool)
deriving DecidableEq, Repr

/-- The state after a host event. A stream that has ended supplies nothing (notes/assumptions/1.md). -/
def hostEvent (e : HostEvent) (s : State) : State :=
  match e with
  | .supply b => if s.inputEnd then s else { s with input := s.input ++ [b] }
  | .endInput => { s with inputEnd := true }
  | .setReady r => { s with outReady := r }

/-- The status output `STATE`: 0 RUNNING, 1 HALTED, 2 FATAL (10_state R38, D13). -/
def statusCode (c : Ctl) : BitVec 2 :=
  match c with
  | .running => 0#2
  | .halted => 1#2
  | .fatal => 2#2

/-- The exit statuses of 60_exceptions R236, three distinct values; their numbers are the host's (D25;
notes/assumptions/22.md). -/
inductive ExitStatus where
  | success
  | noBinary
  | fetchError (addr : Addr)
deriving DecidableEq, Repr

/-- The exit status of an engine that has stopped; none while it runs. -/
def exitStatus (s : State) : Option ExitStatus :=
  match s.ctl with
  | .running => none
  | .halted => some .success
  | .fatal => some (.fetchError s.faultAddr)

/-- The exit status of a load that fails (60_exceptions R236, 70_reset R251); none where the engine is constructed. -/
def loadStatus (image : List Byte) : Option ExitStatus :=
  match loadImage image with
  | none => some .noBinary
  | some _ => none

/-- The number a host reports for a status: one of the three `EXIT_CODES`, which are its own (60_exceptions R236, D25). -/
def exitCode (codes : Config.ExitCodes) (x : ExitStatus) : Nat :=
  match x with
  | .success => codes.success
  | .noBinary => codes.noBinary
  | .fetchError _ => codes.fetchError

/-- What the debug observation port shows for an address `a` (20_memory R87): `LV(a)`, `IP`, `FLAG`, `CYCLE` and `STATE`. -/
structure DebugView where
  value : Byte
  ip : Addr
  flag : Bool
  cycle : Cycle
  state : BitVec 2
deriving DecidableEq, Repr

/-- The debug observation port, used between steps (20_memory R87, D19; 40_fetch_decode R145). The value is the logical one,
computed without a collapse, and the port answers no state: it changes nothing. -/
def debugView (s : State) (a : Addr) : DebugView :=
  ⟨logicalValue s a, s.ip, s.flag, s.cycle, statusCode s.ctl⟩

/-- The byte the debug port shows. -/
def debugByte (s : State) (a : Addr) : Byte := (debugView s a).value

end Sys2Proof.Machine
end

