-- ==== Sys2Proof/Machine/Step.lean ====
section
/-! DEFINITION. One step of the control state machine (40_fetch_decode R146), and the placing of an instruction where the
next step fetches it. -/

namespace Sys2Proof.Machine

/-- `Step()` (40_fetch_decode R130, R131, R146). In HALTED and FATAL a step request does nothing (R143, D27;
notes/assumptions/5.md). A step that holds on a channel leaves the state as it was before the step (R144, D15, U16;
notes/assumptions/2.md). -/
def step (s : State) : Host.Outcome State Fault Refusal :=
  match s.ctl with
  | .halted => .next s
  | .fatal => .next s
  | .running =>
    if s.ip = Config.params.haltAddr then .next (enterHalted s)
    else
      match fetchInstr s with
      | .error t => .next t
      | .ok i _ t => if waits i t then .next s else exec i t

/-- Drop the entries of `n` cells from `a` on. -/
def dropEntries : Nat → Addr → State → State
  | 0, _, s => s
  | n + 1, a, s => dropEntries n (a + 1#16) (dropEntry s a)

/-- `s` with the instruction whose bits are `w` stored at `IP` (at `RESET_IP` if five bytes do not fit below the fetch limit at
`IP`), its five cells without decay entries and the engine RUNNING, so that the next step fetches and runs exactly it. It
stands for a program load (notes/assumptions/19.md). -/
def State.withFetchWord (s : State) (nbits w : Nat) : State :=
  let at0 : Addr := if s.ip.toNat + 5 ≤ Config.params.fetchLimit.toNat then s.ip else Config.params.resetIp
  dropEntries 5 at0
    { s with phys := storeBytes (tableBytes nbits w) at0 s.phys, ip := at0, ctl := .running }

end Sys2Proof.Machine
end

