-- ==== Sys2Proof/Safety.lean ====
section
/-! DEFINITION. The terms claims use: what is kept by a step, the engine's invariant, and what a safe run is. -/

namespace Sys2Proof.Machine

/-! ### What is kept -/

/-- Cell `a` is as it was, but for the collapse of an entry that was due at the start: nothing else may happen to a cell an
instruction only reads (20_memory R61, R67, R73). -/
def cellKept (s t : State) (a : Addr) : Prop :=
  (physAt t a = physAt s a ∧ entryAt t a = entryAt s a) ∨
  (∃ e, entryAt s a = some e ∧ isDue e s.cycle = true ∧ physAt t a = decayed e (physAt s a) ∧ entryAt t a = none)

/-- Reading cell `a` gives in `t` what it gives in `s`, at every cycle count from `s`'s own on. -/
def readsAsBefore (s t : State) (a : Addr) : Prop :=
  ∀ c : Cycle, s.cycle ≤ c → logicalAt t c a = logicalAt s c a

/-- The two channels, the bytes waiting in them and both histories are the same. -/
def sameChannels (s t : State) : Prop :=
  t.input = s.input ∧ t.inputEnd = s.inputEnd ∧ t.outReady = s.outReady ∧ t.inHist = s.inHist ∧ t.outHist = s.outHist

/-- The status registers are the same: `STATE` and `FAULT_ADDR`. -/
def sameStatus (s t : State) : Prop := t.ctl = s.ctl ∧ t.faultAddr = s.faultAddr

/-- Every register, status and channel is the same and every cell is kept: what a fetch or a resolution may do. -/
structure OnlyReads (s t : State) : Prop where
  flag : t.flag = s.flag
  cycle : t.cycle = s.cycle
  ip : t.ip = s.ip
  status : sameStatus s t
  channels : sameChannels s t
  cells : ∀ a, cellKept s t a

/-- Of the reads of `cells`, and of no other, cell `a` shows exactly this: a cell among them holds its logical value and has
kept its entry unless that was due; any other cell has its physical byte and its entry as they were. So a due entry of a cell
that is not read stays (20_memory R61, R66: decay is lazy). -/
def readExactly (cells : List Addr) (s t : State) (a : Addr) : Prop :=
  (a ∈ cells → physAt t a = logicalValue s a ∧ entryAt t a = (entryAt s a).filter fun e => !isDue e s.cycle) ∧
  (a ∉ cells → physAt t a = physAt s a ∧ entryAt t a = entryAt s a)

/-- No cell was written: every cell is kept, and so reads as before. -/
def noCellWritten (s t : State) : Prop := ∀ a, cellKept s t a ∧ readsAsBefore s t a

/-- No cell but `w` was written. -/
def onlyCellWritten (w : Addr) (s t : State) : Prop := ∀ a, a ≠ w → cellKept s t a ∧ readsAsBefore s t a

/-- Two states that no logical read can tell apart, now or at any later cycle count: same registers, status and channels,
and the same logical value of every cell. They may differ in which due entries are collapsed (10_state R41). -/
def logicallyEqual (s t : State) : Prop :=
  t.flag = s.flag ∧ t.cycle = s.cycle ∧ t.ip = s.ip ∧ sameStatus s t ∧ sameChannels s t ∧
    ∀ a, readsAsBefore s t a

/-! ### Conditions under which an instruction completes -/

/-- The `len` bytes of the instruction at `IP` all lie below the fetch limit (40_fetch_decode R141). -/
abbrev fits (s : State) (len : Nat) : Prop := s.ip.toNat + len ≤ Config.params.fetchLimit.toNat

/-- `n` more cycles do not pass the counter's `CYCLE_W` bits, 2^64 - 1 (92_eei D11). -/
abbrev cyclesLeft (s : State) (n : Nat) : Prop := s.cycle.toNat + n < 2 ^ Config.params.cycleWidth

/-- The address is one of the two I/O triggers (42_nand_io R183). -/
def isTrigger (a : Addr) : Prop := a = Config.params.inTrig ∨ a = Config.params.outTrig

/-! ### Addresses and bytes, without side effects -/

/-- The pointer stored at `a`, from logical values (40_fetch_decode R135). -/
def pointerAt (s : State) (a : Addr) : Addr :=
  addrOfBytes (logicalValue s a) (logicalValue s (pointerHighAddr a))

/-- The address an operand stands for: as fetched, or redirected once (30_encoding R109). -/
def effective (s : State) (r : Bool) (a : Addr) : Addr := if r then pointerAt s a else a

/-- The logical values of the bytes of the instruction at `IP`, as many as its opcode asks for (30_encoding R110). -/
def instrBytes (s : State) : List Byte :=
  (List.range (instrLength (logicalValue s s.ip))).map fun k => logicalValue s (s.ip + BitVec.ofNat _ k)

/-- What an instruction asks of the I/O port in a state: the resolved destination of a NAND, none for a branch. -/
def destination (i : Instr) (s : State) : Option Addr :=
  match i with
  | .br _ _ => none
  | .brR _ _ => none
  | .nandw _ rs rd src dst => some (operandsTwo s rs rd src dst).dst
  | .nandwS _ rs _ a => some (operandsOne s rs a).dst
  | .nandbit _ rs rd src dst => some (operandsTwo s rs rd src dst).dst
  | .nandbitS _ rs _ a => some (operandsOne s rs a).dst

/-- The resolved source of a NAND, none for a branch. -/
def source (i : Instr) (s : State) : Option Addr :=
  match i with
  | .br _ _ => none
  | .brR _ _ => none
  | .nandw _ rs rd src dst => some (operandsTwo s rs rd src dst).src
  | .nandwS _ rs _ a => some (operandsOne s rs a).src
  | .nandbit _ rs rd src dst => some (operandsTwo s rs rd src dst).src
  | .nandbitS _ rs _ a => some (operandsOne s rs a).src

/-- The step at `s` runs the instruction `i`: the engine runs, `IP` is not the halt sentinel, the bytes at `IP` fit and decode
to `i`, and `i` does not wait on a channel. -/
structure Executes (i : Instr) (s : State) : Prop where
  running : s.ctl = .running
  notHalt : s.ip ≠ Config.params.haltAddr
  fits : fits s (instrLength (logicalValue s s.ip))
  decodes : decode (instrBytes s) = .ok (i, [])
  ready : waits i s = false

/-! ### Which cells an instruction reads and writes (20_memory R63, R67) -/

/-- The cells a redirection of the operand `a` reads, none where it is not redirected (40_fetch_decode R135). -/
def pointerCells (r : Bool) (a : Addr) : List Addr := if r then [a, pointerHighAddr a] else []

/-- The cells the redirections of an instruction read. -/
def operandCells (i : Instr) : List Addr :=
  match i with
  | .br _ _ => []
  | .brR _ target => pointerCells true target
  | .nandw _ rs rd src dst => pointerCells rs src ++ pointerCells rd dst
  | .nandwS _ rs _ a => pointerCells rs a
  | .nandbit _ rs rd src dst => pointerCells rs src ++ pointerCells rd dst
  | .nandbitS _ rs _ a => pointerCells rs a

/-- The cells the redirection between the two addresses of a 5-byte form reads: the source's (42_nand_io R180). -/
def sourcePointerCells (i : Instr) : List Addr :=
  match i with
  | .br _ _ => []
  | .brR _ _ => []
  | .nandw _ rs _ src _ => pointerCells rs src
  | .nandwS _ _ _ _ => []
  | .nandbit _ rs _ src _ => pointerCells rs src
  | .nandbitS _ _ _ _ => []

/-- `n` cells from `a` on. -/
def cellsFrom : Addr → Nat → List Addr
  | _, 0 => []
  | a, n + 1 => a :: cellsFrom (a + 1#16) n

/-- The cells the fetch of the instruction `i` at `IP` reads, in the order of 20_memory R63: those of its bytes that lie below the
fetch limit, with the source's pointer after the first address. -/
def fetchCells (i : Instr) (s : State) : List Addr :=
  let n := min i.length (Config.params.fetchLimit.toNat - s.ip.toNat)
  (cellsFrom s.ip n).take 3 ++ (if 3 ≤ n then sourcePointerCells i else []) ++ (cellsFrom s.ip n).drop 3

/-- The cells an instruction reads as data: source and destination of a NAND proper, the I/O cell of an output, none of an input
or a branch (42_nand_io R183 to R189). -/
def dataCells (i : Instr) (s : State) : List Addr :=
  match source i s, destination i s with
  | some x, some y =>
    if y = Config.params.inTrig then []
    else if y = Config.params.outTrig then [Config.params.ioCell]
    else [x, y]
  | _, _ => []

/-- The cells a step reads that fetches the instruction `i`: the fetch's, and, where the instruction fits, those of its operands
and of its data. -/
def stepCells (i : Instr) (s : State) : List Addr :=
  fetchCells i s ++ (if fits s i.length then operandCells i ++ dataCells i s else [])

/-- The cell a step writes that runs the instruction `i`: the destination of a NAND proper, the I/O cell of an input. -/
def writtenCell (i : Instr) (s : State) : Option Addr :=
  if fits s i.length then
    match destination i s with
    | none => none
    | some y =>
      if y = Config.params.inTrig then some Config.params.ioCell
      else if y = Config.params.outTrig then none
      else some y
  else none

/-- The cycles a completed instruction takes (70_reset R258): by the resolved destination of a NAND, then by its width. -/
def cycleCost (i : Instr) (s : State) : Nat :=
  match i with
  | .br _ _ => Config.params.costBr
  | .brR _ _ => Config.params.costBr
  | .nandw _ _ _ _ _ =>
    if destination i s = some Config.params.inTrig ∨ destination i s = some Config.params.outTrig then
      Config.params.costIo else Config.params.costNandByte
  | .nandwS _ _ _ _ =>
    if destination i s = some Config.params.inTrig ∨ destination i s = some Config.params.outTrig then
      Config.params.costIo else Config.params.costNandByte
  | .nandbit _ _ _ _ _ =>
    if destination i s = some Config.params.inTrig ∨ destination i s = some Config.params.outTrig then
      Config.params.costIo else Config.params.costNandBit
  | .nandbitS _ _ _ _ =>
    if destination i s = some Config.params.inTrig ∨ destination i s = some Config.params.outTrig then
      Config.params.costIo else Config.params.costNandBit

/-! ### What a completed NAND proper leaves -/

/-- The whole-byte NAND of cell `x` into cell `y` by an instruction of `len` bytes whose redirections read `pointers`: the byte,
its decay entry, `FLAG`, `CYCLE`, `IP`, and everything else kept but for the collapses of the cells it read
(42_nand_io R186, R187, R190). -/
def wholeByteDone (pointers : List Addr) (s : State) (x y : Addr) (len : Nat) (t : State) : Prop :=
  physAt t y = ~~~(logicalValue s x &&& logicalValue s y) ∧
  entryAt t y = some ⟨s.cycle + BitVec.ofNat _ (Config.params.costNandByte + Config.params.decayPeriod), .byte⟩ ∧
  (t.flag = true ↔ ¬ (logicalValue s x = 0xFF#8 ∧ logicalValue s y = 0xFF#8)) ∧
  t.cycle.toNat = s.cycle.toNat + Config.params.costNandByte ∧
  t.ip.toNat = s.ip.toNat + len ∧
  sameStatus s t ∧ sameChannels s t ∧ onlyCellWritten y s t ∧
  ∀ a, a ≠ y → readExactly (pointers ++ [x, y]) s t a

/-- The single-bit NAND of bit `idx` of cell `x` into cell `y`: that bit is the NAND of the two bits, the other seven are
`y`'s logical bits (42_nand_io R188, R189, R190); the rest as in `wholeByteDone`. -/
def singleBitDone (pointers : List Addr) (idx : BitIndex) (s : State) (x y : Addr) (len : Nat) (t : State) : Prop :=
  (∀ j, j < 8 → (physAt t y).getLsbD j =
    if j = idx.toNat then !((logicalValue s x).getLsbD j && (logicalValue s y).getLsbD j)
    else (logicalValue s y).getLsbD j) ∧
  entryAt t y = some ⟨s.cycle + BitVec.ofNat _ (Config.params.costNandBit + Config.params.decayPeriod), .bit idx⟩ ∧
  t.flag = (!((logicalValue s x).getLsbD idx.toNat && (logicalValue s y).getLsbD idx.toNat)) ∧
  t.cycle.toNat = s.cycle.toNat + Config.params.costNandBit ∧
  t.ip.toNat = s.ip.toNat + len ∧
  sameStatus s t ∧ sameChannels s t ∧ onlyCellWritten y s t ∧
  ∀ a, a ≠ y → readExactly (pointers ++ [x, y]) s t a

/-! ### The invariant -/

/-- Memory and decay table are in their canonical form (10_state R34, R35). -/
def tablesCanonical (s : State) : Bool := Memory.wf s.phys && DecayTable.wf s.dt

/-- No entry is due more than `DECAY_PERIOD` after now: deadlines come from `CYCLE` alone (42_nand_io R190). -/
def deadlinesBounded (s : State) : Bool :=
  s.dt.all fun c => decide (c.2.deadline.toNat ≤ s.cycle.toNat + Config.params.decayPeriod)

/-- "No decay entry is ever installed" for the two trigger cells (20_memory R76). -/
def triggersPlain (s : State) : Bool :=
  (entryAt s Config.params.inTrig).isNone && (entryAt s Config.params.outTrig).isNone

/-- `STATE`, `FAULT_ADDR` and `IP` agree: HALTED only at the halt sentinel (40_fetch_decode R131); FATAL only with the
fetch limit recorded and at an opcode address whose instruction does not fit (10_state R39, 60_exceptions R222); before
that `FAULT_ADDR` has its reset value. -/
def statusConsistent (s : State) : Bool :=
  match s.ctl with
  | .running => s.faultAddr == 0x0000#16
  | .halted => s.faultAddr == 0x0000#16 && s.ip == Config.params.haltAddr
  | .fatal => s.faultAddr == Config.params.fetchLimit && decide (Config.params.fetchLimit.toNat < s.ip.toNat + 5) &&
    s.ip != Config.params.haltAddr

/-- The invariant every step keeps. -/
def engineInv (s : State) : Bool :=
  tablesCanonical s && deadlinesBounded s && triggersPlain s && statusConsistent s

/-! ### Safe runs -/

/-- The engine has not met its one error. -/
def noFetchError (s : State) : Prop := s.ctl ≠ .fatal

/-- A run of `n` steps that is never refused and ends without a fetch error. -/
def safeRun (n : Nat) (s : State) : Prop :=
  ∃ t : State, Sys2Proof.core.run n s = .next t ∧ noFetchError t

end Sys2Proof.Machine
end

