-- ==== Sys2Proof/Certificates/Slice0/Obligations.lean ====
section
/-! DEFINITION. The statements for the provers. Numbers of the spec are named by their parameter (00_scope R6), whose
values `ParametersHaveTheirDefaultValues` gives. Where a statement rests on a numbered decision of the spec
(92_eei_decisions.md) or on a log entry, its docstring names it. -/

open Sys2Proof Sys2Proof.Machine

/-! ### Parameters, reset and load -/

/-- The parameters have the default values of the table of 00_scope R6 (the spec marks the literals as unaudited, 93 U12;
`WIDE_SEL`, `DT_CAP` and `PTR_WRAP` are its decisions D3, D16, D5), and addresses and the cycle counter have the widths `ADDR_W`
and `CYCLE_W`. -/
def Obligations.ParametersHaveTheirDefaultValues : Prop :=
  Config.params.addrWidth = 16 ∧ Config.params.memSize = 65536 ∧ Config.params.cycleWidth = 64 ∧
  Addr = BitVec Config.params.addrWidth ∧ Sys2Proof.Cycle = BitVec Config.params.cycleWidth ∧
  Config.params.decayPeriod = 128 ∧ Config.params.costBr = 1 ∧ Config.params.costNandByte = 8 ∧
  Config.params.costNandBit = 1 ∧ Config.params.costIo = 1 ∧ Config.params.haltAddr = 0xFFFF#16 ∧
  Config.params.fetchLimit = 0xFFFF#16 ∧ Config.params.inTrig = 0xFFFD#16 ∧ Config.params.outTrig = 0xFFFE#16 ∧
  Config.params.ioCell = 0xFFFF#16 ∧ Config.params.resetIp = 0x0000#16 ∧ Config.params.loadBase = 0x0000#16 ∧
  Config.params.maxImage = 65536 ∧ Config.params.fill = 0x00#8 ∧ Config.params.wideSel = true ∧
  Config.params.dtCap = 65536 ∧ Config.params.ptrWrap = 0x0000#16

/-- Reset from an image (70_reset R250, R251; decisions D10, D12, D21): an image of at most `MAX_IMAGE` bytes gives a RUNNING
engine at `RESET_IP` whose cells hold the image from `LOAD_BASE` on and then `FILL`, without decay entries, `FLAG` false, `CYCLE`
0, `FAULT_ADDR` 0 and empty histories; a longer image gives none and the "no binary" status. -/
def Obligations.LoadBuildsTheResetStateFromTheImage : Prop :=
  ∀ image : List Byte,
    (image.length ≤ Config.params.maxImage → ∃ s, loadImage image = some s ∧
      (∀ a : Addr, physAt s a = image.getD (a - Config.params.loadBase).toNat Config.params.fill ∧ entryAt s a = none) ∧
      s.dt = [] ∧ s.flag = false ∧ s.cycle = 0#64 ∧ s.ip = Config.params.resetIp ∧ s.faultAddr = 0x0000#16 ∧
      s.ctl = .running ∧ s.inHist = [] ∧ s.outHist = []) ∧
    (¬ image.length ≤ Config.params.maxImage → loadImage image = none ∧ loadStatus image = some .noBinary)

/-- The model's `State.reset` is the load of the empty image (R251: "An empty image is valid and gives an all-zero memory")
and every cell reads `FILL`, which is 0x00. -/
def Obligations.ResetIsTheLoadOfTheEmptyImage : Prop :=
  loadImage [] = some State.reset ∧ Config.params.fill = 0x00#8 ∧
    ∀ a : Addr, logicalValue State.reset a = Config.params.fill

/-! ### The invariant -/

/-- The engine's invariant holds at reset. -/
def Obligations.ResetMeetsTheEngineInvariant : Prop := engineInv State.reset = true

/-- The engine's invariant holds after every load, whatever the image. -/
def Obligations.LoadMeetsTheEngineInvariant : Prop :=
  ∀ (image : List Byte) (s : State), loadImage image = some s → engineInv s = true

/-- Every step keeps the invariant, from EVERY state that meets it: memory and decay table in canonical form, no deadline more
than `DECAY_PERIOD` ahead, no entry at the trigger cells, and `STATE`, `FAULT_ADDR` and `IP` in agreement. -/
def Obligations.EveryStepKeepsTheEngineInvariant : Prop :=
  ∀ s t : State, engineInv s = true → step s = .next t → engineInv t = true

/-- In canonical form the decay table never needs more than `DT_CAP` entries (20_memory R78, decision D16). -/
def Obligations.DecayTableNeverExceedsItsCapacity : Prop :=
  ∀ s : State, tablesCanonical s = true → s.dt.length ≤ Config.params.dtCap

/-- "They keep their load values for the whole run" (20_memory R76, marked derived there): in any run from a state that meets
the invariant, the two trigger cells keep their bytes and have no decay entry. -/
def Obligations.TriggerCellsKeepTheirLoadValues : Prop :=
  ∀ (n : Nat) (s t : State), engineInv s = true → Sys2Proof.core.run n s = .next t →
    ∀ a, isTrigger a → physAt t a = physAt s a ∧ logicalValue t a = logicalValue s a ∧ entryAt t a = none

/-! ### Encoding -/

/-- Decoding the encoding of ANY instruction gives it back, with the bytes after it, for both values of `WIDE_SEL`. -/
def Obligations.DecodeOfEncodeIsTheInstruction : Prop :=
  ∀ (w : Bool) (i : Instr) (rest : List Byte), decodeWith w (encodeWith w i ++ rest) = .ok (i, rest)

/-- Encoding what was decoded gives the bytes back: no bit of an instruction is dropped, not even an ignored one. -/
def Obligations.EncodeOfDecodeIsTheBytes : Prop :=
  ∀ (w : Bool) (bytes : List Byte) (i : Instr) (rest : List Byte),
    decodeWith w bytes = .ok (i, rest) → encodeWith w i ++ rest = bytes

/-- Words written out from the encoding tables of 30_encoding and the examples of 41_branch and 42_nand_io decode, with
`WIDE_SEL` 1, to the instructions they stand for; the engine's decoder is the one its `WIDE_SEL` selects. -/
def Obligations.WrittenOutWordsDecode : Prop :=
  decodeWith true [0x00, 0x34, 0x12] = .ok (.br 0#6 0x1234#16, []) ∧
  decodeWith true [0x40, 0x00, 0x01] = .ok (.brR 0#6 0x0100#16, []) ∧
  decodeWith true [0xC3, 0x00, 0x01, 0x04, 0x01] = .ok (.nandw 0#3 true true 0x0100#16 0x0104#16, []) ∧
  decodeWith true [0xE0, 0xFD, 0xFF] = .ok (.nandwS 0#3 false false 0xFFFD#16, []) ∧
  decodeWith true [0x8C, 0x00, 0x01, 0x01, 0x01] = .ok (.nandbit 3#3 false false 0x0100#16 0x0101#16, []) ∧
  decodeWith true [0xBA, 0x00, 0x01] = .ok (.nandbitS 6#3 true false 0x0100#16, []) ∧
  ∀ bytes : List Byte, decode bytes = decodeWith Config.params.wideSel bytes

/-- "Top bit of the opcode selects the instruction class: 0 → Branch, 1 → NAND" (30_encoding R101), for both values of
`WIDE_SEL`. -/
def Obligations.TopBitSelectsTheClass : Prop :=
  ∀ (w : Bool) (op : Byte) (tail : List Byte) (i : Instr) (rest : List Byte),
    decodeWith w (op :: tail) = .ok (i, rest) → (i.isBranch = true ↔ op[7] = false)

/-- Every opcode byte decodes, to an instruction of the length the opcode announces (30_encoding R108, R110, R111; decisions
D3, D6). -/
def Obligations.EveryOpcodeByteDecodes : Prop :=
  ∀ (w : Bool) (op b1 b2 b3 b4 : Byte) (tail : List Byte), ∃ i rest,
    decodeWith w (op :: b1 :: b2 :: b3 :: b4 :: tail) = .ok (i, rest) ∧ i.length = instrLength op ∧
    rest.length + instrLength op = tail.length + 5 ∧
    (instrLength op = 3 ↔ (op[7] = false ∨ op[5] = true)) ∧
    (instrLength op = 5 ↔ ¬ (op[7] = false ∨ op[5] = true))

/-- The ignored bits have no effect: an instruction does what its assembled form, with those bits 0, does (30_encoding R111,
decision D6; log 9). -/
def Obligations.IgnoredBitsHaveNoEffect : Prop :=
  ∀ (i : Instr) (s : State), exec i s = exec i.canonical s ∧ waits i s = waits i.canonical s ∧
    i.canonical.wellFormed = true

/-! ### Memory and decay -/

/-- The logical value (20_memory R60): the physical byte, unless an entry has deadline <= the cycle count; then that byte with
the entry's byte or bit forced to 0. -/
def Obligations.LogicalValueAppliesDueDecay : Prop :=
  ∀ (s : State) (c : Cycle) (a : Addr),
    (entryAt s a = none → logicalAt s c a = physAt s a) ∧
    (∀ e, entryAt s a = some e → c.toNat < e.deadline.toNat → logicalAt s c a = physAt s a) ∧
    (∀ e, entryAt s a = some e → e.deadline.toNat ≤ c.toNat → e.gran = .byte → logicalAt s c a = 0x00#8) ∧
    (∀ e i, entryAt s a = some e → e.deadline.toNat ≤ c.toNat → e.gran = .bit i →
      ∀ j, j < 8 → (logicalAt s c a).getLsbD j = if j = i.toNat then false else (physAt s a).getLsbD j) ∧
    logicalValue s a = logicalAt s s.cycle a

/-- The logical read (20_memory R61): it returns the logical value; a due entry is applied to the physical cell and removed;
a read of a cell with no due entry changes nothing; nothing else changes. -/
def Obligations.LogicalReadCollapsesDueEntries : Prop :=
  ∀ (s : State) (a : Addr),
    (memRead s a).1 = logicalValue s a ∧ (memRead s a).1 = physAt (memRead s a).2 a ∧
    (∀ e, entryAt s a = some e → e.deadline ≤ s.cycle →
      physAt (memRead s a).2 a = decayed e (physAt s a) ∧ entryAt (memRead s a).2 a = none) ∧
    ((∀ e, entryAt s a = some e → s.cycle < e.deadline) → (memRead s a).2 = s) ∧
    (∀ b, b ≠ a → physAt (memRead s a).2 b = physAt s b ∧ entryAt (memRead s a).2 b = entryAt s b) ∧
    OnlyReads s (memRead s a).2

/-- The order of two logical reads is not observable, in the values they return or in the memory and table they leave
(20_memory R63, R74, marked derived there; log 17). -/
def Obligations.OrderOfReadsIsNotObservable : Prop :=
  ∀ (s : State) (a b : Addr), tablesCanonical s = true →
    (memRead (memRead s a).2 b).2 = (memRead (memRead s b).2 a).2 ∧
    (memRead (memRead s a).2 b).1 = (memRead s b).1 ∧
    memRead (memRead s a).2 a = ((memRead s a).1, (memRead s a).2)

/-- The raw write sets the physical byte and touches no decay entry and no other cell (20_memory R64; the entry left in place
is the spec's decision D8, log 12). -/
def Obligations.RawWriteLeavesTheDecayEntry : Prop :=
  ∀ (s : State) (a b : Addr) (v : Byte),
    physAt (memWrite s a v) a = v ∧ (b ≠ a → physAt (memWrite s a v) b = physAt s b) ∧
    entryAt (memWrite s a v) b = entryAt s b ∧
    (tablesCanonical s = true → tablesCanonical (memWrite s a v) = true)

/-- `ScheduleDecay` installs or replaces the one entry of its address, whatever was there (20_memory R65), and only the NAND
proper schedules: where a step leaves an entry that was not there, the instruction at `IP` is a NAND whose resolved destination,
no trigger, is that cell. -/
def Obligations.OnlyTheNandProperSchedulesDecay : Prop :=
  (∀ (s : State) (a b : Addr) (d : Cycle) (g : Granularity),
    entryAt (scheduleDecay s a d g) a = some ⟨d, g⟩ ∧
    (b ≠ a → entryAt (scheduleDecay s a d g) b = entryAt s b) ∧
    physAt (scheduleDecay s a d g) b = physAt s b) ∧
  (∀ (s t : State) (a : Addr) (e : DecayEntry), step s = .next t → entryAt t a = some e → entryAt s a ≠ some e →
    ∃ i, decode (instrBytes s) = .ok (i, []) ∧ destination i s = some a ∧ ¬ isTrigger a)

/-- Exactly three things write `PHYS` (20_memory R67): a step that changes the physical byte of a cell collapses a due entry of a
cell that its instruction reads (`stepCells`), or is a NAND proper with that resolved destination, which also has an entry
afterwards, or is a read-trigger that puts the byte it took into the I/O cell; and no host event writes memory. That a byte
`EOF_MODE` supplies at the end of the stream enters the input history as any other is the model's choice (decision D14, OPEN;
log 3). Load is `LoadBuildsTheResetStateFromTheImage`'s. -/
def Obligations.ExactlyThreeThingsWritePhysicalMemory : Prop :=
  (∀ (e : HostEvent) (s : State), (hostEvent e s).phys = s.phys) ∧
  ∀ (s t : State) (a : Addr), step s = .next t → physAt t a ≠ physAt s a →
    ∃ i, decode (instrBytes s) = .ok (i, []) ∧
      ((a ∈ stepCells i s ∧ ∃ e, entryAt s a = some e ∧ e.deadline ≤ s.cycle ∧ physAt t a = decayed e (physAt s a) ∧
          entryAt t a = none) ∨
        (destination i s = some a ∧ ¬ isTrigger a ∧ (entryAt t a).isSome = true) ∨
        (a = Config.params.ioCell ∧ destination i s = some Config.params.inTrig ∧
          ∃ b, t.inHist = s.inHist ++ [b] ∧ physAt t a = b))

/-- Decay as a program sees it (70_reset R254, marked derived there; decision D7, log 11): after a whole-byte NAND that starts at
cycle C0 its destination reads as written before C0 + 136 and as 0x00 from then on. -/
def Obligations.WholeByteWriteDecaysAfterItsPeriod : Prop :=
  ∀ (ign : BitIndex) (rs rd : Bool) (a b : Addr) (s : State), fits s 5 →
    cyclesLeft s (Config.params.costNandByte + Config.params.decayPeriod) →
    ¬ isTrigger (operandsTwo s rs rd a b).dst →
    ∃ t, exec (.nandw ign rs rd a b) s = .next t ∧ ∀ c : Cycle,
      logicalAt t c (operandsTwo s rs rd a b).dst =
        if c.toNat < s.cycle.toNat + (Config.params.costNandByte + Config.params.decayPeriod) then
          ~~~(logicalValue s (operandsTwo s rs rd a b).src &&& logicalValue s (operandsTwo s rs rd a b).dst)
        else 0x00#8

/-- After a single-bit NAND that starts at C0 the written bit reads as written before C0 + 129 and as 0 from then on, and the
other seven bits never decay (70_reset R254, R256, marked derived there; decision D7, log 11). -/
def Obligations.SingleBitWriteDecaysThatBitOnly : Prop :=
  ∀ (idx : BitIndex) (rs rd : Bool) (a b : Addr) (s : State), fits s 5 →
    cyclesLeft s (Config.params.costNandBit + Config.params.decayPeriod) →
    ¬ isTrigger (operandsTwo s rs rd a b).dst →
    ∃ t, exec (.nandbit idx rs rd a b) s = .next t ∧ ∀ (c : Cycle) (j : Nat), j < 8 →
      (logicalAt t c (operandsTwo s rs rd a b).dst).getLsbD j =
        if j = idx.toNat then
          decide (c.toNat < s.cycle.toNat + (Config.params.costNandBit + Config.params.decayPeriod)) &&
          !((logicalValue s (operandsTwo s rs rd a b).src).getLsbD j &&
            (logicalValue s (operandsTwo s rs rd a b).dst).getLsbD j)
        else (logicalValue s (operandsTwo s rs rd a b).dst).getLsbD j

/-- Lazy decay is not eager decay (20_memory R66, 70_reset R257, marked derived there; decision D8, log 12), for a step of ANY
NAND whose resolved destination is the read-trigger: the input byte lands raw in the I/O cell, whose entry stays, due or not,
and applies to the byte from its deadline on, so that under a due entry the byte reads decayed at once; unless the entry was due
and a redirection of that same instruction read the I/O cell, which removed it before the byte came. -/
def Obligations.InputOntoADueEntryReadsDecayed : Prop :=
  ∀ (i : Instr) (s : State) (b : Byte) (rest : List Byte) (e : DecayEntry),
    Executes i s → destination i s = some Config.params.inTrig → cyclesLeft s Config.params.costIo →
    s.input = b :: rest → entryAt s Config.params.ioCell = some e →
    ∃ t, step s = .next t ∧ physAt t Config.params.ioCell = b ∧
      (Config.params.ioCell ∉ operandCells i ∨ s.cycle < e.deadline →
        entryAt t Config.params.ioCell = some e ∧
        (∀ c : Cycle, logicalAt t c Config.params.ioCell = if e.deadline ≤ c then decayed e b else b) ∧
        (e.deadline ≤ s.cycle → logicalValue t Config.params.ioCell = decayed e b)) ∧
      (Config.params.ioCell ∈ operandCells i → e.deadline ≤ s.cycle →
        entryAt t Config.params.ioCell = none ∧ ∀ c : Cycle, logicalAt t c Config.params.ioCell = b)

/-! ### Fetch and operands -/

/-- `FetchByte` (40_fetch_decode R133): at the sentinel address the fatal fetch error, otherwise the logical read, and the
pointer advances by one. -/
def Obligations.FetchByteReadsOrFaults : Prop :=
  ∀ (fp : Addr) (s : State),
    (fp = Config.params.fetchLimit → fetchByte fp s = .error (raiseFetchError s fp)) ∧
    (fp ≠ Config.params.fetchLimit →
      fetchByte fp s = .ok (logicalValue s fp) (fp + 1#16) (memRead s fp).2 ∧ (fp + 1#16).toNat = fp.toNat + 1)

/-- `FetchAddr` (40_fetch_decode R134): two bytes, the low byte read first, the pointer advances by two; where the low byte's
fetch succeeds and the high byte's faults, the error is raised at the high byte. -/
def Obligations.FetchAddrIsLittleEndian : Prop :=
  ∀ (fp : Addr) (s : State),
    (fp.toNat + 2 ≤ Config.params.fetchLimit.toNat → ∃ a,
      fetchAddr fp s = .ok a (fp + 2#16) (memRead (memRead s fp).2 (fp + 1#16)).2 ∧
      a.toNat = (logicalValue s fp).toNat + 256 * (logicalValue s (fp + 1#16)).toNat) ∧
    (fp + 1#16 = Config.params.fetchLimit →
      fetchAddr fp s = .error (raiseFetchError (memRead s fp).2 (fp + 1#16))) ∧
    (fp = Config.params.fetchLimit → fetchAddr fp s = .error (raiseFetchError s fp))

/-- A redirection replaces the address once by the little-endian pointer stored at it, with the high byte of a pointer at
the last cell taken from `PTR_WRAP`, and only reads (40_fetch_decode R135, 20_memory R70; decision D5, log 10); an operand that is not
redirected is used as fetched and reads nothing. -/
def Obligations.RedirectionReadsOnePointer : Prop :=
  ∀ (s : State) (a : Addr),
    resolve s false a = (a, s) ∧
    (resolve s true a).1.toNat = (logicalValue s a).toNat +
      256 * (logicalValue s (if a.toNat + 1 = Config.params.memSize then Config.params.ptrWrap else a + 1#16)).toNat ∧
    OnlyReads s (resolve s true a).2

/-- The operands of a NAND (42_nand_io R180): source and destination redirected each on its own; in the single-operand form the
destination is the source after its redirection; resolution only reads. -/
def Obligations.OperandsResolveIndependently : Prop :=
  ∀ (s : State) (rs rd : Bool) (a b : Addr),
    (operandsTwo s rs rd a b).src = effective s rs a ∧ (operandsTwo s rs rd a b).dst = effective s rd b ∧
    OnlyReads s (operandsTwo s rs rd a b).st ∧
    (operandsOne s rs a).src = effective s rs a ∧ (operandsOne s rs a).dst = effective s rs a ∧
    OnlyReads s (operandsOne s rs a).st

/-! ### The step -/

/-- A step runs the decoded instruction: where the engine runs, `IP` is not the halt sentinel and the instruction fits, the
bytes at `IP` decode to an instruction `i`, the fetch answers `i` after reads only, of exactly the cells that hold its bytes and its
source's pointer, and the step is `exec i` in the state the fetch leaves, unless the instruction must wait on a channel; then the
state stays as it was before the step. Two clauses are the model's own form: that a waiting step answers the unchanged state is
deduced from decision D15 (log 2), and that `exec` starts from the state the fetch leaves and resolves the source again, which
changes nothing, is deduced (log 17). -/
def Obligations.StepRunsTheDecodedInstruction : Prop :=
  ∀ s : State, s.ctl = .running → s.ip ≠ Config.params.haltAddr → fits s (instrLength (logicalValue s s.ip)) →
    ∃ i u, decode (instrBytes s) = .ok (i, []) ∧ i.length = instrLength (logicalValue s s.ip) ∧
      fetchInstr s = .ok i (s.ip + BitVec.ofNat _ i.length) u ∧ OnlyReads s u ∧
      (∀ a, readExactly (fetchCells i s) s u a) ∧
      (waits i s = false → step s = exec i u) ∧ (waits i s = true → step s = .next s)

/-- The halt transition (40_fetch_decode R131): `IP` = 0xFFFF at the start of a step goes to HALTED and does nothing else, and
HALTED is reported as the success status. -/
def Obligations.HaltSentinelHaltsAndNothingElse : Prop :=
  ∀ s : State, s.ctl = .running → s.ip = Config.params.haltAddr →
    ∃ t, step s = .next t ∧ t.ctl = .halted ∧ exitStatus t = some .success ∧
      t = { s with ctl := .halted }

/-- In HALTED and FATAL the engine takes no further step, however many are requested (40_fetch_decode R143; that a request
changes nothing is decision D27, log 5). -/
def Obligations.TerminalStatesAreFinal : Prop :=
  ∀ (n : Nat) (s : State), s.ctl ≠ .running → Sys2Proof.core.run n s = .next s

/-- The fetch error is raised exactly when a byte of the instruction would lie at the fetch limit (40_fetch_decode R141, marked
derived there); nothing else enters FATAL. -/
def Obligations.FetchErrorExactlyWhenTheInstructionDoesNotFit : Prop :=
  ∀ s : State, s.ctl = .running → s.ip ≠ Config.params.haltAddr →
    ((∃ t, step s = .next t ∧ t.ctl = .fatal) ↔ ¬ fits s (instrLength (logicalValue s s.ip)))

/-- Taking the fetch error (60_exceptions R221, R223, R224; decisions D12, D13, D26, logs 15 and 16): FATAL, the fetch limit in
`FAULT_ADDR`, `IP` still at the opcode, `FLAG`, `CYCLE`, both channels and every logical value as before, exactly the cells that
were fetched read, and the exit status reports the address. -/
def Obligations.FetchErrorEntersFatalAndKeepsTheRest : Prop :=
  ∀ s : State, s.ctl = .running → s.ip ≠ Config.params.haltAddr →
    ¬ fits s (instrLength (logicalValue s s.ip)) →
    ∃ i t, decode (instrBytes s) = .ok (i, []) ∧
      step s = .next t ∧ t.ctl = .fatal ∧ statusCode t.ctl = 2#2 ∧ t.faultAddr = Config.params.fetchLimit ∧
      exitStatus t = some (.fetchError Config.params.fetchLimit) ∧
      t.ip = s.ip ∧ t.flag = s.flag ∧ t.cycle = s.cycle ∧ sameChannels s t ∧ noCellWritten s t ∧
      ∀ a, readExactly (fetchCells i s) s t a

/-- Every meaning raises the fetch error itself where the instruction does not fit at `IP` (60_exceptions R222; log 18). -/
def Obligations.MeaningsRaiseTheFetchErrorWhereTheyDoNotFit : Prop :=
  ∀ (i : Instr) (s : State), ¬ fits s i.length → exec i s = .next (raiseFetchError s Config.params.fetchLimit)

/-- Progress: while 136 cycles are left before 2^64, every state has a next state; the engine refuses nothing else, and no
step faults (decision D11, log 4). Two cases are the model's own form: that a step which holds on a channel answers
a next state is deduced from decision D15 (log 2), and that a step in HALTED or FATAL does follows decision D27, where the spec
lets a model refuse it instead (93 U17; log 5). -/
def Obligations.EveryStepIsDefinedWhileCyclesAreLeft : Prop :=
  ∀ s : State, cyclesLeft s (Config.params.costNandByte + Config.params.decayPeriod) → ∃ t, step s = .next t

/-- What a step refuses, and that it refuses it (10_state R37, 42_nand_io R193; decision D11, log 4): exactly an instruction whose
increment of `CYCLE` would pass 2^64 - 1, and a NAND proper whose deadline would. -/
def Obligations.ExactlyCounterOverflowIsRefused : Prop :=
  ∀ s : State,
    (step s = .refused .cycleOverflow ↔ ∃ i, Executes i s ∧ ¬ cyclesLeft s (cycleCost i s)) ∧
    (step s = .refused .deadlineOverflow ↔ ∃ i y, Executes i s ∧ destination i s = some y ∧ ¬ isTrigger y ∧
      cyclesLeft s (cycleCost i s) ∧ ¬ cyclesLeft s (cycleCost i s + Config.params.decayPeriod)) ∧
    ∀ r, step s = .refused r → r = .cycleOverflow ∨ r = .deadlineOverflow

/-- The cycle accounting of 70_reset R258 (10_state R37): a step adds the cost of the instruction it completes; the halt
transition, the fetch error, a hold and a step in a terminal state add nothing. That the last two answer the unchanged state at
all is the model's form (decisions D15 and D27; logs 2 and 5). -/
def Obligations.CycleGrowsByTheCostOfTheInstruction : Prop :=
  ∀ s t : State, step s = .next t →
    (t.cycle = s.cycle ∧ (t = s ∨ t.ctl ≠ .running)) ∨
    (t.ctl = .running ∧ ∃ i, decode (instrBytes s) = .ok (i, []) ∧
      t.cycle.toNat = s.cycle.toNat + cycleCost i s)

/-- `FLAG` is written by NANDs alone (10_state R36): a step that changes `FLAG` runs a NAND; and I/O forms set it: a step that
runs a NAND at a trigger leaves `FLAG` true, whatever it was. -/
def Obligations.OnlyNandsWriteTheFlag : Prop :=
  ∀ s t : State, step s = .next t →
    (t.flag ≠ s.flag → ∃ i y, Executes i s ∧ i.isBranch = false ∧ destination i s = some y) ∧
    (∀ i y, Executes i s → destination i s = some y → isTrigger y → t.flag = true)

/-- I/O accesses are ordered with the instructions that make them (20_memory R86): a read-trigger that completes takes exactly
one byte, the next one of the channel; a write-trigger that completes hands over exactly one byte, after those handed over
before; no step does both, and no other step does either. Where the stream has ended there is no next byte: that the byte
`EOF_MODE` then supplies enters the input history as any other is the model's choice (decision D14, OPEN; log 3; see
`ReadTriggerAtEndOfStreamFollowsEofMode`). -/
def Obligations.EachStepMakesAtMostOneIoAccess : Prop :=
  ∀ s t : State, step s = .next t →
    (t.input = s.input ∧ t.inHist = s.inHist ∧ t.outHist = s.outHist ∧
      (t = s ∨ t.ctl ≠ .running ∨ ∃ i, decode (instrBytes s) = .ok (i, []) ∧
        destination i s ≠ some Config.params.inTrig ∧ destination i s ≠ some Config.params.outTrig)) ∨
    (∃ i b, decode (instrBytes s) = .ok (i, []) ∧ destination i s = some Config.params.inTrig ∧
      t.outHist = s.outHist ∧ t.inHist = s.inHist ++ [b] ∧
      (s.input = b :: t.input ∨ (s.input = [] ∧ t.input = [] ∧ s.inputEnd = true))) ∨
    (∃ i, decode (instrBytes s) = .ok (i, []) ∧ destination i s = some Config.params.outTrig ∧
      t.input = s.input ∧ t.inHist = s.inHist ∧
      t.outHist = s.outHist ++ [logicalValue s Config.params.ioCell])

/-- Which due entries have been collapsed is not observable, but for an input onto the I/O cell (10_state R41, 20_memory R66,
R73, marked derived there): two states that no logical read can tell apart step to two states that none can tell apart, unless
the instruction at `IP` is a NAND at the read-trigger. -/
def Obligations.StepsRespectLogicalEquality : Prop :=
  ∀ s s' t : State, logicallyEqual s s' →
    (∀ i, decode (instrBytes s) = .ok (i, []) → destination i s ≠ some Config.params.inTrig) →
    step s = .next t → ∃ t', step s' = .next t' ∧ logicallyEqual t t'

/-- Decay is lazy in every step (20_memory R61, R63, R66; 60_exceptions R224, decision D26, log 16): whatever the step does, a cell it does
not write shows the reads of exactly the cells its instruction reads, in its fetch, its redirections and its data: a cell among
them holds its logical value and has lost a due entry, any other cell keeps its byte and its entry, due or not. A step in a
terminal state, the halt transition and a hold (decision D15, log 2) read nothing. -/
def Obligations.EveryStepReadsExactlyTheCellsOfItsInstruction : Prop :=
  ∀ s t : State, step s = .next t →
    (s.ctl ≠ .running ∨ s.ip = Config.params.haltAddr → t.phys = s.phys ∧ t.dt = s.dt) ∧
    (s.ctl = .running → s.ip ≠ Config.params.haltAddr → ∀ i, decode (instrBytes s) = .ok (i, []) →
      (fits s i.length → waits i s = true → t = s) ∧
      ((fits s i.length → waits i s = false) →
        ∀ a, writtenCell i s ≠ some a → readExactly (stepCells i s) s t a))

/-! ### Branches -/

/-- BR (41_branch R160), as an instruction in execution: everything but `IP` and `CYCLE` unchanged. -/
def Obligations.BrJumpsToItsTargetIfTheFlagIsSet : Prop :=
  ∀ (ign : BitVec 6) (target : Addr) (s : State), fits s 3 → cyclesLeft s Config.params.costBr →
    exec (.br ign target) s = .next { s with
      ip := if s.flag = true then target else s.ip + 3#16
      cycle := s.cycle + BitVec.ofNat _ Config.params.costBr }

/-- BR.R (41_branch R161), as an instruction in execution: the target is the pointer at the fetched address; the pointer is read
whether or not the branch is taken, and no cell is written. -/
def Obligations.BrRJumpsThroughThePointerIfTheFlagIsSet : Prop :=
  ∀ (ign : BitVec 6) (target : Addr) (s : State), fits s 3 → cyclesLeft s Config.params.costBr →
    ∃ t, exec (.brR ign target) s = .next t ∧
      t.ip = (if s.flag = true then pointerAt s target else s.ip + 3#16) ∧
      t.cycle.toNat = s.cycle.toNat + Config.params.costBr ∧ t.flag = s.flag ∧
      t.phys = (resolve s true target).2.phys ∧ t.dt = (resolve s true target).2.dt ∧
      sameStatus s t ∧ sameChannels s t ∧ noCellWritten s t ∧ ∀ a, readExactly (pointerCells true target) s t a

/-- A step at a BR opcode (41_branch R160), from the bytes in memory: the ignored bits are any; with the opcode one or two bytes
below `FETCH_LIMIT`, at 0xFFFD or 0xFFFE, the fetch error; else `IP` becomes the target if `FLAG` is true and the address after
the instruction if not, `CYCLE` grows by `COST_BR` either way, `FLAG` and memory are not written, the logical reads are those of
the opcode and target bytes, and a new `IP` at the halt sentinel makes the next step halt. -/
def Obligations.StepAtABrOpcodeFollowsItsRule : Prop :=
  ∀ s : State, s.ctl = .running → s.ip ≠ Config.params.haltAddr →
    (logicalValue s s.ip)[7] = false → (logicalValue s s.ip)[6] = false →
    (s.ip + 1#16 = Config.params.fetchLimit ∨ s.ip + 2#16 = Config.params.fetchLimit →
      ∃ t, step s = .next t ∧ t.ctl = .fatal ∧
        t.ip = s.ip ∧ t.flag = s.flag ∧ t.cycle = s.cycle ∧ sameChannels s t ∧ noCellWritten s t) ∧
    (s.ip + 1#16 ≠ Config.params.fetchLimit → s.ip + 2#16 ≠ Config.params.fetchLimit → cyclesLeft s Config.params.costBr →
      ∃ t, step s = .next t ∧
      t.ip = (if s.flag = true then addrOfBytes (logicalValue s (s.ip + 1#16)) (logicalValue s (s.ip + 2#16))
        else s.ip + 3#16) ∧
      t.cycle.toNat = s.cycle.toNat + Config.params.costBr ∧ t.flag = s.flag ∧
      t.ctl = .running ∧ t.faultAddr = s.faultAddr ∧ sameChannels s t ∧ noCellWritten s t ∧
      (∀ a, readExactly [s.ip, s.ip + 1#16, s.ip + 2#16] s t a) ∧
      (t.ip = Config.params.haltAddr → step t = .next { t with ctl := .halted }))

/-- A step at a BR.R opcode (41_branch R161), from the bytes in memory: as BR, with the target redirected exactly once, whether or
not the branch is taken; the pointer read never faults, even at 0xFFFE or 0xFFFF. -/
def Obligations.StepAtABrROpcodeFollowsItsRule : Prop :=
  ∀ (s : State) (p : Addr), s.ctl = .running → s.ip ≠ Config.params.haltAddr →
    (logicalValue s s.ip)[7] = false → (logicalValue s s.ip)[6] = true →
    p = addrOfBytes (logicalValue s (s.ip + 1#16)) (logicalValue s (s.ip + 2#16)) →
    (s.ip + 1#16 = Config.params.fetchLimit ∨ s.ip + 2#16 = Config.params.fetchLimit →
      ∃ t, step s = .next t ∧ t.ctl = .fatal ∧
        t.ip = s.ip ∧ t.flag = s.flag ∧ t.cycle = s.cycle ∧ sameChannels s t ∧ noCellWritten s t) ∧
    (s.ip + 1#16 ≠ Config.params.fetchLimit → s.ip + 2#16 ≠ Config.params.fetchLimit → cyclesLeft s Config.params.costBr →
      ∃ t, step s = .next t ∧
      t.ip = (if s.flag = true then pointerAt s p else s.ip + 3#16) ∧
      t.cycle.toNat = s.cycle.toNat + Config.params.costBr ∧ t.flag = s.flag ∧
      t.ctl = .running ∧ t.faultAddr = s.faultAddr ∧ sameChannels s t ∧ noCellWritten s t ∧
      (∀ a, readExactly [s.ip, s.ip + 1#16, s.ip + 2#16, p, pointerHighAddr p] s t a) ∧
      (t.ip = Config.params.haltAddr → step t = .next { t with ctl := .halted }))

/-! ### NAND -/

/-- NANDW (42_nand_io R186), its destination no trigger: result, decay entry, flag, cycles, the cells read and frame. -/
def Obligations.NandwWritesTheWholeByteNand : Prop :=
  ∀ (ign : BitIndex) (rs rd : Bool) (a b : Addr) (s : State), fits s 5 →
    cyclesLeft s (Config.params.costNandByte + Config.params.decayPeriod) →
    ¬ isTrigger (operandsTwo s rs rd a b).dst →
    ∃ t, exec (.nandw ign rs rd a b) s = .next t ∧
      wholeByteDone (pointerCells rs a ++ pointerCells rd b) s (operandsTwo s rs rd a b).src
        (operandsTwo s rs rd a b).dst 5 t

/-- NANDW.S (42_nand_io R187), its address no trigger: the one resolved address is source and destination, and gets its own
complement. -/
def Obligations.NandwSComplementsItsOneOperand : Prop :=
  ∀ (ign : BitIndex) (rs ignRd : Bool) (a : Addr) (s : State), fits s 3 →
    cyclesLeft s (Config.params.costNandByte + Config.params.decayPeriod) →
    ¬ isTrigger (operandsOne s rs a).dst →
    ∃ t, exec (.nandwS ign rs ignRd a) s = .next t ∧
      physAt t (operandsOne s rs a).dst = ~~~(logicalValue s (operandsOne s rs a).dst) ∧
      wholeByteDone (pointerCells rs a) s (operandsOne s rs a).dst (operandsOne s rs a).dst 3 t

/-- NANDBIT (42_nand_io R188), its destination no trigger: one bit is written, the other seven keep their logical values. -/
def Obligations.NandbitWritesTheSelectedBit : Prop :=
  ∀ (idx : BitIndex) (rs rd : Bool) (a b : Addr) (s : State), fits s 5 →
    cyclesLeft s (Config.params.costNandBit + Config.params.decayPeriod) →
    ¬ isTrigger (operandsTwo s rs rd a b).dst →
    ∃ t, exec (.nandbit idx rs rd a b) s = .next t ∧
      singleBitDone (pointerCells rs a ++ pointerCells rd b) idx s (operandsTwo s rs rd a b).src
        (operandsTwo s rs rd a b).dst 5 t

/-- NANDBIT.S (42_nand_io R189), its address no trigger: the selected bit is inverted. -/
def Obligations.NandbitSInvertsTheSelectedBit : Prop :=
  ∀ (idx : BitIndex) (rs ignRd : Bool) (a : Addr) (s : State), fits s 3 →
    cyclesLeft s (Config.params.costNandBit + Config.params.decayPeriod) →
    ¬ isTrigger (operandsOne s rs a).dst →
    ∃ t, exec (.nandbitS idx rs ignRd a) s = .next t ∧
      t.flag = (!(logicalValue s (operandsOne s rs a).dst).getLsbD idx.toNat) ∧
      singleBitDone (pointerCells rs a) idx s (operandsOne s rs a).dst (operandsOne s rs a).dst 3 t

/-- A two-operand NAND on one and the same address is the single-operand form, but for its length (42_nand_io R191, marked
derived there), in both widths. -/
def Obligations.NandOfACellWithItselfIsTheSingleOperandForm : Prop :=
  ∀ (i j : BitIndex) (r d : Bool) (a : Addr) (s : State), fits s 5 → ¬ isTrigger a →
    (∀ t, exec (.nandw i false false a a) s = .next t →
      ∃ u, exec (.nandwS j false d a) s = .next u ∧ t = { u with ip := s.ip + 5#16 }) ∧
    (∀ t, exec (.nandbit i false false a a) s = .next t →
      ∃ u, exec (.nandbitS i false r a) s = .next u ∧ t = { u with ip := s.ip + 5#16 })

/-! ### The I/O port -/

/-- The read-trigger (42_nand_io R183, R184; decisions D8, D9, D15, D30), for each of the four NANDs: a resolved destination of
`IN_TRIG` with a byte waiting puts that byte raw into the I/O cell, sets `FLAG`, adds `COST_IO`, and does nothing of a NAND: no
decay is scheduled, no other cell is written, and nothing but its redirections is read. -/
def Obligations.ReadTriggerInputsOneByte : Prop :=
  ∀ (i : Instr) (s : State) (b : Byte) (rest : List Byte), destination i s = some Config.params.inTrig →
    fits s i.length → cyclesLeft s Config.params.costIo → s.input = b :: rest →
    ∃ t, exec i s = .next t ∧ physAt t Config.params.ioCell = b ∧
      entryAt t Config.params.ioCell = (if Config.params.ioCell ∈ operandCells i then
        (entryAt s Config.params.ioCell).filter (fun e => !isDue e s.cycle) else entryAt s Config.params.ioCell) ∧
      t.flag = true ∧ t.cycle.toNat = s.cycle.toNat + Config.params.costIo ∧ t.ip.toNat = s.ip.toNat + i.length ∧
      sameStatus s t ∧ t.input = rest ∧ t.inHist = s.inHist ++ [b] ∧ t.inputEnd = s.inputEnd ∧
      t.outReady = s.outReady ∧ t.outHist = s.outHist ∧ onlyCellWritten Config.params.ioCell s t ∧
      ∀ a, a ≠ Config.params.ioCell → readExactly (operandCells i) s t a

/-- The write-trigger (42_nand_io R183, R185; decisions D9, D15, D29, D31), for each of the four NANDs: a resolved destination of
`OUT_TRIG` with the host ready hands it the I/O cell's logical value, sets `FLAG`, adds `COST_IO`, writes no cell, and reads its
redirections and the I/O cell, whose due entry is collapsed. -/
def Obligations.WriteTriggerOutputsTheIoCell : Prop :=
  ∀ (i : Instr) (s : State), destination i s = some Config.params.outTrig →
    fits s i.length → cyclesLeft s Config.params.costIo → s.outReady = true →
    ∃ t, exec i s = .next t ∧ t.outHist = s.outHist ++ [logicalValue s Config.params.ioCell] ∧
      t.flag = true ∧ t.cycle.toNat = s.cycle.toNat + Config.params.costIo ∧ t.ip.toNat = s.ip.toNat + i.length ∧
      sameStatus s t ∧ t.input = s.input ∧ t.inHist = s.inHist ∧ t.inputEnd = s.inputEnd ∧
      t.outReady = s.outReady ∧ noCellWritten s t ∧ ∀ a, readExactly (operandCells i ++ [Config.params.ioCell]) s t a

/-- At the end of the input stream the read-trigger does what `EOF_MODE` says, for every value of it (decision D14, OPEN; log 3):
it holds, or it completes with the byte `EOF_MODE` names. Two clauses are the model's own: that a hold answers the state as it was
before the step is its form of decision D15, deduced (log 2), and that the byte `EOF_MODE` names enters the input history as any
other is its choice (log 3, DESIGN CHOICE). -/
def Obligations.ReadTriggerAtEndOfStreamFollowsEofMode : Prop :=
  ∀ (i : Instr) (s : State), destination i s = some Config.params.inTrig →
    fits s i.length → cyclesLeft s Config.params.costIo → s.input = [] → s.inputEnd = true →
    (Config.eofMode = .hold → exec i s = .next s) ∧
    (∀ v, Config.eofMode = .byte v → ∃ t, exec i s = .next t ∧ physAt t Config.params.ioCell = v ∧ t.flag = true ∧
      t.inHist = s.inHist ++ [v] ∧ t.input = [] ∧ t.cycle.toNat = s.cycle.toNat + Config.params.costIo ∧
      t.ip.toNat = s.ip.toNat + i.length ∧ sameStatus s t ∧ t.inputEnd = true ∧ t.outReady = s.outReady ∧
      t.outHist = s.outHist ∧ onlyCellWritten Config.params.ioCell s t ∧
      ∀ a, a ≠ Config.params.ioCell → readExactly (operandCells i) s t a)

/-- A hold (decision D15, 93 U16; log 2): while the host supplies no byte, or accepts none, a step at a trigger leaves the state
exactly as it was before the step. -/
def Obligations.HoldingOnAChannelLeavesTheState : Prop :=
  ∀ (s : State) (i : Instr), s.ctl = .running → s.ip ≠ Config.params.haltAddr →
    fits s (instrLength (logicalValue s s.ip)) → decode (instrBytes s) = .ok (i, []) →
    ((destination i s = some Config.params.inTrig ∧ s.input = [] ∧ s.inputEnd = false) ∨
      (destination i s = some Config.params.outTrig ∧ s.outReady = false)) →
    step s = .next s

/-- "A supplied byte lifts the hold" (42_nand_io R184; decision D15; the supply is the model's `hostEvent`, log 1): a step
that waits for input completes once the host has supplied a byte, and takes that byte. -/
def Obligations.ASuppliedByteLiftsTheHold : Prop :=
  ∀ (s : State) (i : Instr) (b : Byte), s.ctl = .running → s.ip ≠ Config.params.haltAddr →
    fits s (instrLength (logicalValue s s.ip)) → decode (instrBytes s) = .ok (i, []) →
    destination i s = some Config.params.inTrig → s.input = [] → s.inputEnd = false →
    cyclesLeft s Config.params.costIo →
    ∃ t, step (hostEvent (.supply b) s) = .next t ∧ t.inHist = s.inHist ++ [b] ∧ t.input = [] ∧
      physAt t Config.params.ioCell = b ∧ t.flag = true

/-- The host's events on the channels, `hostEvent` and the three state fields it changes, are the model's own form of the two
byte channels (decisions D2, D15; log 1, DESIGN CHOICE). Such an event, between steps, touches those fields only: no memory,
register or status, and neither history. -/
def Obligations.HostEventsTouchOnlyTheChannels : Prop :=
  ∀ (e : HostEvent) (s : State), ∃ input inputEnd outReady,
    hostEvent e s = { s with input := input, inputEnd := inputEnd, outReady := outReady }

/-- The debug observation port (20_memory R87; decisions D19 and, for the numbers of `STATE`, D13, log 15) sees the logical value
of any cell, `IP`, `FLAG`, `CYCLE` and `STATE`, and whether a due entry has been collapsed does not show in it. It is a function
from the state that answers no state. -/
def Obligations.DebugPortSeesTheLogicalState : Prop :=
  ∀ (s : State) (a : Addr),
    (debugView s a).value = logicalValue s a ∧ (debugView s a).ip = s.ip ∧ (debugView s a).flag = s.flag ∧
    (debugView s a).cycle = s.cycle ∧
    ((debugView s a).state = 0#2 ↔ s.ctl = .running) ∧ ((debugView s a).state = 1#2 ↔ s.ctl = .halted) ∧
    ((debugView s a).state = 2#2 ↔ s.ctl = .fatal) ∧ debugByte s a = logicalValue s a ∧
    ∀ b : Addr, debugView (memRead s b).2 a = debugView s a
end

