-- ==== Sys2Proof/Laws/Sparse.lean ====
section
/-! SUPPORT. The small lemmas of the sparse tables: reading after an insertion or an erasure, and the canonical form. -/

namespace Sys2Proof.Machine

variable {α : Type}

@[simp] theorem sparseFind_nil (a : Nat) : sparseFind ([] : List (Nat × α)) a = none := rfl

theorem sparseFind_cons (k : Nat) (v : α) (l : List (Nat × α)) (a : Nat) :
    sparseFind ((k, v) :: l) a = if a = k then some v else sparseFind l a := rfl

theorem sparseFind_insert (l : List (Nat × α)) (a b : Nat) (v : α) :
    sparseFind (sparseInsert a v l) b = if b = a then some v else sparseFind l b := by
  induction l with
  | nil => simp [sparseInsert, sparseFind_cons]
  | cons c l ih =>
    obtain ⟨k, w⟩ := c
    simp only [sparseInsert]
    split
    · simp [sparseFind_cons]
    · split
      · rename_i h; subst h
        simp only [sparseFind_cons]; split <;> rfl
      · rename_i h
        simp only [sparseFind_cons, ih]
        by_cases hk : b = k
        · have hb : b ≠ a := fun e => h (e ▸ hk)
          simp [hk, Ne.symm h]
        · simp [hk]

theorem sparseFind_erase (l : List (Nat × α)) (a b : Nat) :
    sparseFind (sparseErase a l) b = if b = a then none else sparseFind l b := by
  induction l with
  | nil => simp [sparseErase]
  | cons c l ih =>
    obtain ⟨k, w⟩ := c
    simp only [sparseErase]
    split
    · rename_i h; subst h
      rw [ih, sparseFind_cons]; split <;> rfl
    · rename_i h
      rw [sparseFind_cons, ih, sparseFind_cons]
      by_cases hk : b = k
      · have hb : b ≠ a := fun e => h (e ▸ hk)
        simp [hk, Ne.symm h]
      · simp [hk]

theorem risingFrom_mono {l : List (Nat × α)} {lo lo' : Nat} (h : lo' ≤ lo) (hl : risingFrom lo l = true) :
    risingFrom lo' l = true := by
  cases l with
  | nil => rfl
  | cons c l =>
    simp only [risingFrom, Bool.and_eq_true, decide_eq_true_eq] at hl ⊢
    exact ⟨by omega, hl.2⟩

theorem risingFrom_insert {l : List (Nat × α)} {lo a : Nat} (v : α) (ha : lo ≤ a) (hl : risingFrom lo l = true) :
    risingFrom lo (sparseInsert a v l) = true := by
  induction l generalizing lo with
  | nil => simp [sparseInsert, risingFrom, ha]
  | cons c l ih =>
    obtain ⟨k, w⟩ := c
    simp only [risingFrom, Bool.and_eq_true, decide_eq_true_eq] at hl
    simp only [sparseInsert]
    split
    · simp only [risingFrom, Bool.and_eq_true, decide_eq_true_eq]
      exact ⟨ha, by omega, hl.2⟩
    · split
      · rename_i h; subst h
        simp only [risingFrom, Bool.and_eq_true, decide_eq_true_eq]
        exact ⟨ha, hl.2⟩
      · simp only [risingFrom, Bool.and_eq_true, decide_eq_true_eq]
        exact ⟨hl.1, ih (by omega) hl.2⟩

theorem risingFrom_erase {l : List (Nat × α)} {lo : Nat} (a : Nat) (hl : risingFrom lo l = true) :
    risingFrom lo (sparseErase a l) = true := by
  induction l generalizing lo with
  | nil => rfl
  | cons c l ih =>
    obtain ⟨k, w⟩ := c
    simp only [risingFrom, Bool.and_eq_true, decide_eq_true_eq] at hl
    simp only [sparseErase]
    split
    · exact ih (risingFrom_mono (by omega) hl.2)
    · simp only [risingFrom, Bool.and_eq_true, decide_eq_true_eq]
      exact ⟨hl.1, ih hl.2⟩

theorem all_insert {l : List (Nat × α)} {p : Nat × α → Bool} {a : Nat} {v : α} (hv : p (a, v) = true)
    (hl : l.all p = true) : (sparseInsert a v l).all p = true := by
  induction l with
  | nil => simp [sparseInsert, hv]
  | cons c l ih =>
    obtain ⟨k, w⟩ := c
    simp only [List.all_cons, Bool.and_eq_true] at hl
    simp only [sparseInsert]
    split
    · simp [hv, hl.1, hl.2]
    · split
      · simp [hv, hl.2]
      · simp [hl.1, ih hl.2]

theorem all_erase {l : List (Nat × α)} {p : Nat × α → Bool} (a : Nat) (hl : l.all p = true) :
    (sparseErase a l).all p = true := by
  induction l with
  | nil => rfl
  | cons c l ih =>
    obtain ⟨k, w⟩ := c
    simp only [List.all_cons, Bool.and_eq_true] at hl
    simp only [sparseErase]
    split
    · exact ih hl.2
    · simp [hl.1, ih hl.2]

theorem sparseFind_of_mem {l : List (Nat × α)} {lo : Nat} (hl : risingFrom lo l = true) {k : Nat} {v : α}
    (h : (k, v) ∈ l) : sparseFind l k = some v ∧ lo ≤ k := by
  induction l generalizing lo with
  | nil => cases h
  | cons c l ih =>
    obtain ⟨k', v'⟩ := c
    simp only [risingFrom, Bool.and_eq_true, decide_eq_true_eq] at hl
    rcases List.mem_cons.mp h with h | h
    · cases h; exact ⟨by simp [sparseFind_cons], hl.1⟩
    · obtain ⟨h1, h2⟩ := ih hl.2 h
      refine ⟨?_, by omega⟩
      rw [sparseFind_cons, if_neg (by omega), h1]

theorem mem_of_sparseFind {l : List (Nat × α)} {k : Nat} {v : α} (h : sparseFind l k = some v) : (k, v) ∈ l := by
  induction l with
  | nil => cases h
  | cons c l ih =>
    obtain ⟨k', v'⟩ := c
    rw [sparseFind_cons] at h
    split at h
    · rename_i e; subst e; cases h; exact List.mem_cons_self
    · exact List.mem_cons_of_mem _ (ih h)

theorem sparseFind_none_below {l : List (Nat × α)} {lo k : Nat} (hl : risingFrom lo l = true) (h : k < lo) :
    sparseFind l k = none := by
  cases hf : sparseFind l k with
  | none => rfl
  | some v => have := (sparseFind_of_mem hl (mem_of_sparseFind hf)).2; omega

/-- Two tables in canonical form that answer alike are the same list. -/
theorem sparse_ext {l m : List (Nat × α)} {lo : Nat} (hl : risingFrom lo l = true) (hm : risingFrom lo m = true)
    (h : ∀ k, sparseFind l k = sparseFind m k) : l = m := by
  induction l generalizing lo m with
  | nil =>
    cases m with
    | nil => rfl
    | cons c m => obtain ⟨k, v⟩ := c; have := h k; simp [sparseFind_cons] at this
  | cons c l ih =>
    obtain ⟨k, v⟩ := c
    cases m with
    | nil => have := h k; simp [sparseFind_cons] at this
    | cons d m =>
      obtain ⟨k', v'⟩ := d
      simp only [risingFrom, Bool.and_eq_true, decide_eq_true_eq] at hl hm
      have hkk : k = k' := by
        rcases Nat.lt_trichotomy k k' with hlt | he | hgt
        · have := h k
          rw [sparseFind_cons, if_pos rfl, sparseFind_cons, if_neg (by omega),
            sparseFind_none_below hm.2 (by omega)] at this
          cases this
        · exact he
        · have := h k'
          rw [sparseFind_cons, if_neg (by omega), sparseFind_none_below hl.2 (by omega), sparseFind_cons,
            if_pos rfl] at this
          cases this
      subst hkk
      have hv := h k
      simp only [sparseFind_cons, if_true] at hv
      cases hv
      refine congrArg _ (ih hl.2 hm.2 fun j => ?_)
      have hj := h j
      simp only [sparseFind_cons] at hj
      split at hj
      · rename_i e
        rw [sparseFind_none_below hl.2 (by omega), sparseFind_none_below hm.2 (by omega)]
      · exact hj

/-- A table in canonical form with addresses below `n` has at most `n - lo` entries. -/
theorem length_le_of_rising {l : List (Nat × α)} {lo n : Nat} (hl : risingFrom lo l = true)
    (hn : ∀ c ∈ l, c.1 < n) : l.length ≤ n - lo := by
  induction l generalizing lo with
  | nil => simp
  | cons c l ih =>
    obtain ⟨k, v⟩ := c
    simp only [risingFrom, Bool.and_eq_true, decide_eq_true_eq] at hl
    have hk : k < n := hn (k, v) List.mem_cons_self
    have := ih hl.2 fun c hc => hn c (List.mem_cons_of_mem _ hc)
    simp only [List.length_cons]
    omega

end Sys2Proof.Machine
end

