-- ==== Sys2Proof/Laws/State.lean ====
section
/-! SUPPORT. One lemma per field per update of State, and the parameters' values. -/

namespace Sys2Proof.Machine

/-! ### memWrite -/

@[simp] theorem memWrite_phys (s : State) (a : Addr) (v : Byte) : (memWrite s a v).phys = Memory.write s.phys a.toNat v := rfl
@[simp] theorem memWrite_dt (s : State) (a : Addr) (v : Byte) : (memWrite s a v).dt = s.dt := rfl
@[simp] theorem memWrite_flag (s : State) (a : Addr) (v : Byte) : (memWrite s a v).flag = s.flag := rfl
@[simp] theorem memWrite_cycle (s : State) (a : Addr) (v : Byte) : (memWrite s a v).cycle = s.cycle := rfl
@[simp] theorem memWrite_ip (s : State) (a : Addr) (v : Byte) : (memWrite s a v).ip = s.ip := rfl
@[simp] theorem memWrite_ctl (s : State) (a : Addr) (v : Byte) : (memWrite s a v).ctl = s.ctl := rfl
@[simp] theorem memWrite_faultAddr (s : State) (a : Addr) (v : Byte) : (memWrite s a v).faultAddr = s.faultAddr := rfl
@[simp] theorem memWrite_input (s : State) (a : Addr) (v : Byte) : (memWrite s a v).input = s.input := rfl
@[simp] theorem memWrite_inputEnd (s : State) (a : Addr) (v : Byte) : (memWrite s a v).inputEnd = s.inputEnd := rfl
@[simp] theorem memWrite_outReady (s : State) (a : Addr) (v : Byte) : (memWrite s a v).outReady = s.outReady := rfl
@[simp] theorem memWrite_inHist (s : State) (a : Addr) (v : Byte) : (memWrite s a v).inHist = s.inHist := rfl
@[simp] theorem memWrite_outHist (s : State) (a : Addr) (v : Byte) : (memWrite s a v).outHist = s.outHist := rfl

/-! ### scheduleDecay -/

@[simp] theorem scheduleDecay_phys (s : State) (a : Addr) (d : Cycle) (g : Granularity) : (scheduleDecay s a d g).phys = s.phys := rfl
@[simp] theorem scheduleDecay_dt (s : State) (a : Addr) (d : Cycle) (g : Granularity) : (scheduleDecay s a d g).dt = sparseInsert a.toNat ⟨d, g⟩ s.dt := rfl
@[simp] theorem scheduleDecay_flag (s : State) (a : Addr) (d : Cycle) (g : Granularity) : (scheduleDecay s a d g).flag = s.flag := rfl
@[simp] theorem scheduleDecay_cycle (s : State) (a : Addr) (d : Cycle) (g : Granularity) : (scheduleDecay s a d g).cycle = s.cycle := rfl
@[simp] theorem scheduleDecay_ip (s : State) (a : Addr) (d : Cycle) (g : Granularity) : (scheduleDecay s a d g).ip = s.ip := rfl
@[simp] theorem scheduleDecay_ctl (s : State) (a : Addr) (d : Cycle) (g : Granularity) : (scheduleDecay s a d g).ctl = s.ctl := rfl
@[simp] theorem scheduleDecay_faultAddr (s : State) (a : Addr) (d : Cycle) (g : Granularity) : (scheduleDecay s a d g).faultAddr = s.faultAddr := rfl
@[simp] theorem scheduleDecay_input (s : State) (a : Addr) (d : Cycle) (g : Granularity) : (scheduleDecay s a d g).input = s.input := rfl
@[simp] theorem scheduleDecay_inputEnd (s : State) (a : Addr) (d : Cycle) (g : Granularity) : (scheduleDecay s a d g).inputEnd = s.inputEnd := rfl
@[simp] theorem scheduleDecay_outReady (s : State) (a : Addr) (d : Cycle) (g : Granularity) : (scheduleDecay s a d g).outReady = s.outReady := rfl
@[simp] theorem scheduleDecay_inHist (s : State) (a : Addr) (d : Cycle) (g : Granularity) : (scheduleDecay s a d g).inHist = s.inHist := rfl
@[simp] theorem scheduleDecay_outHist (s : State) (a : Addr) (d : Cycle) (g : Granularity) : (scheduleDecay s a d g).outHist = s.outHist := rfl

/-! ### dropEntry -/

@[simp] theorem dropEntry_phys (s : State) (a : Addr) : (dropEntry s a).phys = s.phys := rfl
@[simp] theorem dropEntry_dt (s : State) (a : Addr) : (dropEntry s a).dt = sparseErase a.toNat s.dt := rfl
@[simp] theorem dropEntry_flag (s : State) (a : Addr) : (dropEntry s a).flag = s.flag := rfl
@[simp] theorem dropEntry_cycle (s : State) (a : Addr) : (dropEntry s a).cycle = s.cycle := rfl
@[simp] theorem dropEntry_ip (s : State) (a : Addr) : (dropEntry s a).ip = s.ip := rfl
@[simp] theorem dropEntry_ctl (s : State) (a : Addr) : (dropEntry s a).ctl = s.ctl := rfl
@[simp] theorem dropEntry_faultAddr (s : State) (a : Addr) : (dropEntry s a).faultAddr = s.faultAddr := rfl
@[simp] theorem dropEntry_input (s : State) (a : Addr) : (dropEntry s a).input = s.input := rfl
@[simp] theorem dropEntry_inputEnd (s : State) (a : Addr) : (dropEntry s a).inputEnd = s.inputEnd := rfl
@[simp] theorem dropEntry_outReady (s : State) (a : Addr) : (dropEntry s a).outReady = s.outReady := rfl
@[simp] theorem dropEntry_inHist (s : State) (a : Addr) : (dropEntry s a).inHist = s.inHist := rfl
@[simp] theorem dropEntry_outHist (s : State) (a : Addr) : (dropEntry s a).outHist = s.outHist := rfl

/-! ### setFlag -/

@[simp] theorem setFlag_phys (s : State) (b : Bool) : (setFlag s b).phys = s.phys := rfl
@[simp] theorem setFlag_dt (s : State) (b : Bool) : (setFlag s b).dt = s.dt := rfl
@[simp] theorem setFlag_flag (s : State) (b : Bool) : (setFlag s b).flag = b := rfl
@[simp] theorem setFlag_cycle (s : State) (b : Bool) : (setFlag s b).cycle = s.cycle := rfl
@[simp] theorem setFlag_ip (s : State) (b : Bool) : (setFlag s b).ip = s.ip := rfl
@[simp] theorem setFlag_ctl (s : State) (b : Bool) : (setFlag s b).ctl = s.ctl := rfl
@[simp] theorem setFlag_faultAddr (s : State) (b : Bool) : (setFlag s b).faultAddr = s.faultAddr := rfl
@[simp] theorem setFlag_input (s : State) (b : Bool) : (setFlag s b).input = s.input := rfl
@[simp] theorem setFlag_inputEnd (s : State) (b : Bool) : (setFlag s b).inputEnd = s.inputEnd := rfl
@[simp] theorem setFlag_outReady (s : State) (b : Bool) : (setFlag s b).outReady = s.outReady := rfl
@[simp] theorem setFlag_inHist (s : State) (b : Bool) : (setFlag s b).inHist = s.inHist := rfl
@[simp] theorem setFlag_outHist (s : State) (b : Bool) : (setFlag s b).outHist = s.outHist := rfl

/-! ### retire -/

@[simp] theorem retire_phys (s : State) (ip : Addr) (c : Cycle) : (retire s ip c).phys = s.phys := rfl
@[simp] theorem retire_dt (s : State) (ip : Addr) (c : Cycle) : (retire s ip c).dt = s.dt := rfl
@[simp] theorem retire_flag (s : State) (ip : Addr) (c : Cycle) : (retire s ip c).flag = s.flag := rfl
@[simp] theorem retire_cycle (s : State) (ip : Addr) (c : Cycle) : (retire s ip c).cycle = c := rfl
@[simp] theorem retire_ip (s : State) (ip : Addr) (c : Cycle) : (retire s ip c).ip = ip := rfl
@[simp] theorem retire_ctl (s : State) (ip : Addr) (c : Cycle) : (retire s ip c).ctl = s.ctl := rfl
@[simp] theorem retire_faultAddr (s : State) (ip : Addr) (c : Cycle) : (retire s ip c).faultAddr = s.faultAddr := rfl
@[simp] theorem retire_input (s : State) (ip : Addr) (c : Cycle) : (retire s ip c).input = s.input := rfl
@[simp] theorem retire_inputEnd (s : State) (ip : Addr) (c : Cycle) : (retire s ip c).inputEnd = s.inputEnd := rfl
@[simp] theorem retire_outReady (s : State) (ip : Addr) (c : Cycle) : (retire s ip c).outReady = s.outReady := rfl
@[simp] theorem retire_inHist (s : State) (ip : Addr) (c : Cycle) : (retire s ip c).inHist = s.inHist := rfl
@[simp] theorem retire_outHist (s : State) (ip : Addr) (c : Cycle) : (retire s ip c).outHist = s.outHist := rfl

/-! ### enterHalted -/

@[simp] theorem enterHalted_phys (s : State) : (enterHalted s).phys = s.phys := rfl
@[simp] theorem enterHalted_dt (s : State) : (enterHalted s).dt = s.dt := rfl
@[simp] theorem enterHalted_flag (s : State) : (enterHalted s).flag = s.flag := rfl
@[simp] theorem enterHalted_cycle (s : State) : (enterHalted s).cycle = s.cycle := rfl
@[simp] theorem enterHalted_ip (s : State) : (enterHalted s).ip = s.ip := rfl
@[simp] theorem enterHalted_ctl (s : State) : (enterHalted s).ctl = .halted := rfl
@[simp] theorem enterHalted_faultAddr (s : State) : (enterHalted s).faultAddr = s.faultAddr := rfl
@[simp] theorem enterHalted_input (s : State) : (enterHalted s).input = s.input := rfl
@[simp] theorem enterHalted_inputEnd (s : State) : (enterHalted s).inputEnd = s.inputEnd := rfl
@[simp] theorem enterHalted_outReady (s : State) : (enterHalted s).outReady = s.outReady := rfl
@[simp] theorem enterHalted_inHist (s : State) : (enterHalted s).inHist = s.inHist := rfl
@[simp] theorem enterHalted_outHist (s : State) : (enterHalted s).outHist = s.outHist := rfl

/-! ### raiseFetchError -/

@[simp] theorem raiseFetchError_phys (s : State) (a : Addr) : (raiseFetchError s a).phys = s.phys := rfl
@[simp] theorem raiseFetchError_dt (s : State) (a : Addr) : (raiseFetchError s a).dt = s.dt := rfl
@[simp] theorem raiseFetchError_flag (s : State) (a : Addr) : (raiseFetchError s a).flag = s.flag := rfl
@[simp] theorem raiseFetchError_cycle (s : State) (a : Addr) : (raiseFetchError s a).cycle = s.cycle := rfl
@[simp] theorem raiseFetchError_ip (s : State) (a : Addr) : (raiseFetchError s a).ip = s.ip := rfl
@[simp] theorem raiseFetchError_ctl (s : State) (a : Addr) : (raiseFetchError s a).ctl = .fatal := rfl
@[simp] theorem raiseFetchError_faultAddr (s : State) (a : Addr) : (raiseFetchError s a).faultAddr = a := rfl
@[simp] theorem raiseFetchError_input (s : State) (a : Addr) : (raiseFetchError s a).input = s.input := rfl
@[simp] theorem raiseFetchError_inputEnd (s : State) (a : Addr) : (raiseFetchError s a).inputEnd = s.inputEnd := rfl
@[simp] theorem raiseFetchError_outReady (s : State) (a : Addr) : (raiseFetchError s a).outReady = s.outReady := rfl
@[simp] theorem raiseFetchError_inHist (s : State) (a : Addr) : (raiseFetchError s a).inHist = s.inHist := rfl
@[simp] theorem raiseFetchError_outHist (s : State) (a : Addr) : (raiseFetchError s a).outHist = s.outHist := rfl

/-! ### emitByte -/

@[simp] theorem emitByte_phys (s : State) (b : Byte) : (emitByte s b).phys = s.phys := rfl
@[simp] theorem emitByte_dt (s : State) (b : Byte) : (emitByte s b).dt = s.dt := rfl
@[simp] theorem emitByte_flag (s : State) (b : Byte) : (emitByte s b).flag = s.flag := rfl
@[simp] theorem emitByte_cycle (s : State) (b : Byte) : (emitByte s b).cycle = s.cycle := rfl
@[simp] theorem emitByte_ip (s : State) (b : Byte) : (emitByte s b).ip = s.ip := rfl
@[simp] theorem emitByte_ctl (s : State) (b : Byte) : (emitByte s b).ctl = s.ctl := rfl
@[simp] theorem emitByte_faultAddr (s : State) (b : Byte) : (emitByte s b).faultAddr = s.faultAddr := rfl
@[simp] theorem emitByte_input (s : State) (b : Byte) : (emitByte s b).input = s.input := rfl
@[simp] theorem emitByte_inputEnd (s : State) (b : Byte) : (emitByte s b).inputEnd = s.inputEnd := rfl
@[simp] theorem emitByte_outReady (s : State) (b : Byte) : (emitByte s b).outReady = s.outReady := rfl
@[simp] theorem emitByte_inHist (s : State) (b : Byte) : (emitByte s b).inHist = s.inHist := rfl
@[simp] theorem emitByte_outHist (s : State) (b : Byte) : (emitByte s b).outHist = s.outHist ++ [b] := rfl

/-! ### The collapse of a logical read changes memory and decay table only -/

@[simp] theorem collapse_flag (s : State) (a : Addr) : (collapse s a).flag = s.flag := by
  unfold collapse; split <;> [split; skip] <;> rfl

@[simp] theorem collapse_cycle (s : State) (a : Addr) : (collapse s a).cycle = s.cycle := by
  unfold collapse; split <;> [split; skip] <;> rfl

@[simp] theorem collapse_ip (s : State) (a : Addr) : (collapse s a).ip = s.ip := by
  unfold collapse; split <;> [split; skip] <;> rfl

@[simp] theorem collapse_ctl (s : State) (a : Addr) : (collapse s a).ctl = s.ctl := by
  unfold collapse; split <;> [split; skip] <;> rfl

@[simp] theorem collapse_faultAddr (s : State) (a : Addr) : (collapse s a).faultAddr = s.faultAddr := by
  unfold collapse; split <;> [split; skip] <;> rfl

@[simp] theorem collapse_input (s : State) (a : Addr) : (collapse s a).input = s.input := by
  unfold collapse; split <;> [split; skip] <;> rfl

@[simp] theorem collapse_inputEnd (s : State) (a : Addr) : (collapse s a).inputEnd = s.inputEnd := by
  unfold collapse; split <;> [split; skip] <;> rfl

@[simp] theorem collapse_outReady (s : State) (a : Addr) : (collapse s a).outReady = s.outReady := by
  unfold collapse; split <;> [split; skip] <;> rfl

@[simp] theorem collapse_inHist (s : State) (a : Addr) : (collapse s a).inHist = s.inHist := by
  unfold collapse; split <;> [split; skip] <;> rfl

@[simp] theorem collapse_outHist (s : State) (a : Addr) : (collapse s a).outHist = s.outHist := by
  unfold collapse; split <;> [split; skip] <;> rfl

/-! ### Parameters -/

theorem params_addrWidth : Config.params.addrWidth = 16 := rfl
theorem params_memSize : Config.params.memSize = 65536 := rfl
theorem params_cycleWidth : Config.params.cycleWidth = 64 := rfl

/-- The word types have the widths of the parameters. -/
theorem addr_width : Addr = BitVec Config.params.addrWidth := rfl
theorem cycle_width : Cycle = BitVec Config.params.cycleWidth := rfl

theorem params_wideSel : Config.params.wideSel = true := rfl
theorem params_decayPeriod : Config.params.decayPeriod = 128 := rfl
theorem params_costBr : Config.params.costBr = 1 := rfl
theorem params_costNandByte : Config.params.costNandByte = 8 := rfl
theorem params_costNandBit : Config.params.costNandBit = 1 := rfl
theorem params_costIo : Config.params.costIo = 1 := rfl
theorem params_haltAddr : Config.params.haltAddr = 0xFFFF#16 := rfl
theorem params_fetchLimit : Config.params.fetchLimit = 0xFFFF#16 := rfl
theorem params_inTrig : Config.params.inTrig = 0xFFFD#16 := rfl
theorem params_outTrig : Config.params.outTrig = 0xFFFE#16 := rfl
theorem params_ioCell : Config.params.ioCell = 0xFFFF#16 := rfl
theorem params_ptrWrap : Config.params.ptrWrap = 0x0000#16 := rfl
theorem params_fill : Config.params.fill = 0x00#8 := rfl
theorem params_maxImage : Config.params.maxImage = 65536 := rfl
theorem params_loadBase : Config.params.loadBase = 0x0000#16 := rfl
theorem params_resetIp : Config.params.resetIp = 0x0000#16 := rfl
theorem params_dtCap : Config.params.dtCap = 65536 := rfl

end Sys2Proof.Machine
end

