-- ==== Sys2Proof/Laws/Memory.lean ====
section
/-! SUPPORT. Reading after writing, the canonical form, the logical value and the collapse of a logical read. -/

namespace Sys2Proof.Machine

/-! ### Memory -/

theorem Memory.read_write (m : Memory) (a b : Nat) (v : Byte) :
    Memory.read (Memory.write m a v) b = if b = a then v else Memory.read m b := by
  unfold Memory.read Memory.write
  split
  · rename_i h; rw [sparseFind_erase]; split
    · simp [h]
    · rfl
  · rw [sparseFind_insert]; split <;> rfl

theorem Memory.wf_nil : Memory.wf [] = true := rfl

theorem Memory.wf_write {m : Memory} {a : Nat} (v : Byte) (ha : a < Config.params.memSize) (h : Memory.wf m = true) :
    Memory.wf (Memory.write m a v) = true := by
  simp only [Memory.wf, Bool.and_eq_true] at h ⊢
  unfold Memory.write
  split
  · exact ⟨risingFrom_erase a h.1, all_erase a h.2⟩
  · rename_i hv
    exact ⟨risingFrom_insert v (Nat.zero_le _) h.1,
      all_insert (by simp only [Bool.and_eq_true, decide_eq_true_eq, bne_iff_ne]; exact ⟨ha, hv⟩) h.2⟩

/-- Two memories in canonical form that read alike are the same data. -/
theorem Memory.ext_read {m n : Memory} (hm : Memory.wf m = true) (hn : Memory.wf n = true)
    (h : ∀ a, Memory.read m a = Memory.read n a) : m = n := by
  simp only [Memory.wf, Bool.and_eq_true] at hm hn
  refine sparse_ext hm.1 hn.1 fun k => ?_
  have hne : ∀ {l : Memory}, (l.all fun c => decide (c.1 < Config.params.memSize) && c.2 != Config.params.fill) = true →
      sparseFind l k ≠ some Config.params.fill := by
    intro l hl hf
    have := List.all_eq_true.mp hl _ (mem_of_sparseFind hf)
    simp at this
  have hk := h k
  unfold Memory.read at hk
  cases hx : sparseFind m k with
  | none =>
    cases hy : sparseFind n k with
    | none => rfl
    | some y =>
      rw [hx, hy] at hk
      exact absurd (hy.trans (congrArg some hk.symm)) (hne hn.2)
  | some x =>
    cases hy : sparseFind n k with
    | none =>
      rw [hx, hy] at hk
      exact absurd (hx.trans (congrArg some hk)) (hne hm.2)
    | some y => rw [hx, hy] at hk; exact congrArg some hk

theorem DecayTable.wf_insert {t : DecayTable} {a : Nat} (e : DecayEntry) (ha : a < Config.params.memSize)
    (h : DecayTable.wf t = true) : DecayTable.wf (sparseInsert a e t) = true := by
  simp only [DecayTable.wf, Bool.and_eq_true] at h ⊢
  exact ⟨risingFrom_insert e (Nat.zero_le _) h.1, all_insert (by simpa using ha) h.2⟩

theorem DecayTable.wf_erase {t : DecayTable} (a : Nat) (h : DecayTable.wf t = true) :
    DecayTable.wf (sparseErase a t) = true := by
  simp only [DecayTable.wf, Bool.and_eq_true] at h ⊢
  exact ⟨risingFrom_erase a h.1, all_erase a h.2⟩

theorem toNat_lt_memSize (a : Addr) : a.toNat < Config.params.memSize := a.isLt

theorem toNat_eq_iff (a b : Addr) : a.toNat = b.toNat ↔ a = b := ⟨BitVec.eq_of_toNat_eq, congrArg _⟩

/-! ### One byte and one entry after an update -/

@[simp] theorem physAt_memWrite (s : State) (a b : Addr) (v : Byte) :
    physAt (memWrite s a v) b = if b = a then v else physAt s b := by
  simp only [physAt, memWrite_phys, Memory.read_write, toNat_eq_iff]

@[simp] theorem entryAt_memWrite (s : State) (a b : Addr) (v : Byte) :
    entryAt (memWrite s a v) b = entryAt s b := rfl

@[simp] theorem physAt_scheduleDecay (s : State) (a b : Addr) (d : Cycle) (g : Granularity) :
    physAt (scheduleDecay s a d g) b = physAt s b := rfl

@[simp] theorem entryAt_scheduleDecay (s : State) (a b : Addr) (d : Cycle) (g : Granularity) :
    entryAt (scheduleDecay s a d g) b = if b = a then some ⟨d, g⟩ else entryAt s b := by
  simp only [entryAt, scheduleDecay_dt, sparseFind_insert, toNat_eq_iff]

@[simp] theorem physAt_dropEntry (s : State) (a b : Addr) : physAt (dropEntry s a) b = physAt s b := rfl

@[simp] theorem entryAt_dropEntry (s : State) (a b : Addr) :
    entryAt (dropEntry s a) b = if b = a then none else entryAt s b := by
  simp only [entryAt, dropEntry_dt, sparseFind_erase, toNat_eq_iff]

@[simp] theorem physAt_setFlag (s : State) (f : Bool) (b : Addr) : physAt (setFlag s f) b = physAt s b := rfl
@[simp] theorem entryAt_setFlag (s : State) (f : Bool) (b : Addr) : entryAt (setFlag s f) b = entryAt s b := rfl
@[simp] theorem physAt_retire (s : State) (p : Addr) (c : Cycle) (b : Addr) :
    physAt (retire s p c) b = physAt s b := rfl
@[simp] theorem entryAt_retire (s : State) (p : Addr) (c : Cycle) (b : Addr) :
    entryAt (retire s p c) b = entryAt s b := rfl
@[simp] theorem physAt_emitByte (s : State) (v : Byte) (b : Addr) : physAt (emitByte s v) b = physAt s b := rfl
@[simp] theorem entryAt_emitByte (s : State) (v : Byte) (b : Addr) : entryAt (emitByte s v) b = entryAt s b := rfl
@[simp] theorem physAt_raiseFetchError (s : State) (a b : Addr) : physAt (raiseFetchError s a) b = physAt s b := rfl
@[simp] theorem entryAt_raiseFetchError (s : State) (a b : Addr) :
    entryAt (raiseFetchError s a) b = entryAt s b := rfl

/-! ### Decay -/

theorem isDue_iff (e : DecayEntry) (c : Cycle) : isDue e c = true ↔ e.deadline.toNat ≤ c.toNat := by
  simp [isDue, BitVec.le_def]

theorem isDue_mono {e : DecayEntry} {c c' : Cycle} (h : c ≤ c') (hd : isDue e c = true) : isDue e c' = true := by
  rw [isDue_iff] at hd ⊢
  exact Nat.le_trans hd (BitVec.le_def.mp h)

theorem decayed_decayed (e : DecayEntry) (v : Byte) : decayed e (decayed e v) = decayed e v := by
  unfold decayed
  split
  · rfl
  · rw [BitVec.and_assoc, BitVec.and_self]

theorem collapse_of_none {s : State} {a : Addr} (h : entryAt s a = none) : collapse s a = s := by
  unfold collapse; rw [h]

theorem collapse_of_not_due {s : State} {a : Addr} {e : DecayEntry} (h : entryAt s a = some e)
    (hd : isDue e s.cycle = false) : collapse s a = s := by
  unfold collapse; rw [h]; simp [hd]

theorem collapse_of_due {s : State} {a : Addr} {e : DecayEntry} (h : entryAt s a = some e)
    (hd : isDue e s.cycle = true) :
    collapse s a = dropEntry (memWrite s a (decayed e (physAt s a))) a := by
  unfold collapse; rw [h]; simp [hd]

/-- The physical cell after a collapse: the logical value at the collapsed cell, the others as they were. -/
@[simp] theorem physAt_collapse (s : State) (a b : Addr) :
    physAt (collapse s a) b = if b = a then logicalValue s a else physAt s b := by
  unfold collapse logicalValue logicalAt
  cases he : entryAt s a with
  | none => dsimp only; split <;> simp_all
  | some e =>
    dsimp only
    cases hd : isDue e s.cycle with
    | false => simp only [Bool.false_eq_true, if_false]; split <;> simp_all
    | true => simp only [if_true, physAt_dropEntry, physAt_memWrite]

/-- The entry after a collapse: none if it was due, else what it was. -/
theorem entryAt_collapse (s : State) (a b : Addr) :
    entryAt (collapse s a) b =
      if b = a then (entryAt s a).filter (fun e => !isDue e s.cycle) else entryAt s b := by
  by_cases h : b = a
  · subst h
    rw [if_pos rfl]
    cases he : entryAt s b with
    | none => rw [collapse_of_none he, he]; rfl
    | some e =>
      cases hd : isDue e s.cycle with
      | false => rw [collapse_of_not_due he hd, he, Option.filter, hd]; rfl
      | true => rw [collapse_of_due he hd, Option.filter, hd]; simp
  · rw [if_neg h]
    unfold collapse
    split
    · split <;> simp [h]
    · rfl

/-- A logical read returns the logical value (20_memory R61). -/
@[simp] theorem memRead_value (s : State) (a : Addr) : (memRead s a).1 = logicalValue s a := by
  simp [memRead]

@[simp] theorem memRead_state (s : State) (a : Addr) : (memRead s a).2 = collapse s a := rfl

/-! ### What is kept -/

theorem cellKept_refl (s : State) (a : Addr) : cellKept s s a := Or.inl ⟨rfl, rfl⟩

theorem cellKept_collapse (s : State) (b a : Addr) : cellKept s (collapse s b) a := by
  unfold cellKept
  rw [physAt_collapse, entryAt_collapse]
  by_cases h : a = b
  · subst h
    simp only [if_true]
    cases he : entryAt s a with
    | none => left; simp [logicalValue, logicalAt, he]
    | some e =>
      cases hd : isDue e s.cycle with
      | false => left; simp [logicalValue, logicalAt, he, hd]
      | true => right; exact ⟨e, rfl, hd, by simp [logicalValue, logicalAt, he, hd], by simp [hd]⟩
  · left; simp [h]

theorem cellKept_trans {s t u : State} {a : Addr} (hc : t.cycle = s.cycle) (h1 : cellKept s t a)
    (h2 : cellKept t u a) : cellKept s u a := by
  rcases h1 with ⟨p1, e1⟩ | ⟨e, he, hd, p1, n1⟩
  · rcases h2 with ⟨p2, e2⟩ | ⟨e, he, hd, p2, n2⟩
    · exact Or.inl ⟨p2.trans p1, e2.trans e1⟩
    · exact Or.inr ⟨e, e1 ▸ he, hc ▸ hd, by rw [p2, p1], n2⟩
  · rcases h2 with ⟨p2, e2⟩ | ⟨e', he', _, _, _⟩
    · exact Or.inr ⟨e, he, hd, p2.trans p1, e2.trans n1⟩
    · rw [n1] at he'; cases he'

/-- A kept cell reads as before, at every cycle count from the start on. -/
theorem readsAsBefore_of_cellKept {s t : State} {a : Addr} (h : cellKept s t a) : readsAsBefore s t a := by
  intro c hc
  unfold logicalAt
  rcases h with ⟨p, e⟩ | ⟨e, he, hd, p, n⟩
  · rw [p, e]
  · rw [n, he, p]; simp [isDue_mono hc hd]

theorem logicalValue_of_cellKept {s t : State} {a : Addr} (hc : t.cycle = s.cycle) (h : cellKept s t a) :
    logicalValue t a = logicalValue s a := by
  have := readsAsBefore_of_cellKept h s.cycle (BitVec.le_refl _)
  rw [logicalValue, hc, this, logicalValue]

/-- A collapse changes no logical value (20_memory R73). -/
@[simp] theorem logicalValue_collapse (s : State) (b a : Addr) :
    logicalValue (collapse s b) a = logicalValue s a :=
  logicalValue_of_cellKept (collapse_cycle s b) (cellKept_collapse s b a)

/-- A second logical read of a cell at the same cycle count changes nothing (20_memory R74). -/
@[simp] theorem collapse_collapse (s : State) (a : Addr) : collapse (collapse s a) a = collapse s a := by
  have he := entryAt_collapse s a a
  rw [if_pos rfl] at he
  cases h : entryAt (collapse s a) a with
  | none => exact collapse_of_none h
  | some e =>
    refine collapse_of_not_due h ?_
    rw [h] at he
    have := (Option.filter_eq_some_iff.mp he.symm).2
    simpa using this

theorem onlyReads_refl (s : State) : OnlyReads s s :=
  ⟨rfl, rfl, rfl, ⟨rfl, rfl⟩, ⟨rfl, rfl, rfl, rfl, rfl⟩, cellKept_refl s⟩

theorem onlyReads_collapse (s : State) (a : Addr) : OnlyReads s (collapse s a) :=
  ⟨by simp, by simp, by simp, by simp [sameStatus], by simp [sameChannels], cellKept_collapse s a⟩

theorem onlyReads_trans {s t u : State} (h1 : OnlyReads s t) (h2 : OnlyReads t u) : OnlyReads s u :=
  ⟨h2.flag.trans h1.flag, h2.cycle.trans h1.cycle, h2.ip.trans h1.ip,
    ⟨h2.status.1.trans h1.status.1, h2.status.2.trans h1.status.2⟩,
    ⟨h2.channels.1.trans h1.channels.1, h2.channels.2.1.trans h1.channels.2.1,
      h2.channels.2.2.1.trans h1.channels.2.2.1, h2.channels.2.2.2.1.trans h1.channels.2.2.2.1,
      h2.channels.2.2.2.2.trans h1.channels.2.2.2.2⟩,
    fun a => cellKept_trans h1.cycle (h1.cells a) (h2.cells a)⟩

theorem onlyReads_logicalValue {s t : State} (h : OnlyReads s t) (a : Addr) : logicalValue t a = logicalValue s a :=
  logicalValue_of_cellKept h.cycle (h.cells a)

/-! ### A list of reads -/

/-- The state after logical reads of these cells, in order. -/
def readAll (cells : List Addr) (s : State) : State := cells.foldl collapse s

@[simp] theorem readAll_nil (s : State) : readAll [] s = s := rfl
@[simp] theorem readAll_cons (a : Addr) (l : List Addr) (s : State) : readAll (a :: l) s = readAll l (collapse s a) := rfl
theorem readAll_append (l m : List Addr) (s : State) : readAll (l ++ m) s = readAll m (readAll l s) :=
  List.foldl_append

/-- A property that every collapse keeps is kept by any reads. -/
theorem readAll_induct {P : State → Prop} (hP : ∀ s a, P s → P (collapse s a)) (l : List Addr) {s : State} (h : P s) :
    P (readAll l s) := by
  induction l generalizing s with
  | nil => exact h
  | cons a l ih => exact ih (hP s a h)

theorem onlyReads_readAll (l : List Addr) (s : State) : OnlyReads s (readAll l s) :=
  readAll_induct (P := OnlyReads s) (fun _ b h => onlyReads_trans h (onlyReads_collapse _ b)) l (onlyReads_refl s)

/-- Reads show exactly in the cells that were read. -/
theorem readExactly_readAll (l : List Addr) (s : State) (a : Addr) : readExactly l s (readAll l s) a := by
  induction l generalizing s with
  | nil => exact ⟨fun h => by simp at h, fun _ => ⟨rfl, rfl⟩⟩
  | cons b l ih =>
    obtain ⟨h1, h2⟩ := ih (collapse s b)
    rw [readAll_cons]
    by_cases hl : a ∈ l
    · refine ⟨fun _ => ?_, fun hn => absurd (List.mem_cons_of_mem b hl) hn⟩
      obtain ⟨p, e⟩ := h1 hl
      refine ⟨p.trans (logicalValue_collapse s b a), ?_⟩
      rw [e, entryAt_collapse, collapse_cycle]
      split
      · rename_i hab; subst hab; simp [Option.filter_filter]
      · rfl
    · obtain ⟨p, e⟩ := h2 hl
      by_cases hab : a = b
      · subst hab
        refine ⟨fun _ => ?_, fun hn => absurd List.mem_cons_self hn⟩
        rw [p, e, physAt_collapse, entryAt_collapse, if_pos rfl, if_pos rfl]
        exact ⟨rfl, rfl⟩
      · refine ⟨fun hm => absurd hm (by simp [hab, hl]), fun _ => ?_⟩
        rw [p, e, physAt_collapse, entryAt_collapse, if_neg hab, if_neg hab]
        exact ⟨rfl, rfl⟩

/-- Reads followed by more reads. -/
theorem readExactly_trans {l m : List Addr} {s t u : State} {a : Addr} (hc : t.cycle = s.cycle)
    (hv : logicalValue t a = logicalValue s a) (h1 : readExactly l s t a) (h2 : readExactly m t u a) :
    readExactly (l ++ m) s u a := by
  by_cases hl : a ∈ l <;> by_cases hm : a ∈ m
  · obtain ⟨p, e⟩ := h1.1 hl
    obtain ⟨p', e'⟩ := h2.1 hm
    refine ⟨fun _ => ⟨p'.trans hv, ?_⟩, fun hn => absurd (List.mem_append_left m hl) hn⟩
    rw [e', e, hc, Option.filter_filter]
    simp
  · obtain ⟨p, e⟩ := h1.1 hl
    obtain ⟨p', e'⟩ := h2.2 hm
    exact ⟨fun _ => ⟨p'.trans p, e'.trans e⟩, fun hn => absurd (List.mem_append_left m hl) hn⟩
  · obtain ⟨_, e⟩ := h1.2 hl
    obtain ⟨p', e'⟩ := h2.1 hm
    exact ⟨fun _ => ⟨p'.trans hv, by rw [e', e, hc]⟩, fun hn => absurd (List.mem_append_right l hm) hn⟩
  · obtain ⟨p, e⟩ := h1.2 hl
    obtain ⟨p', e'⟩ := h2.2 hm
    exact ⟨fun h => by simp [hl, hm] at h, fun _ => ⟨p'.trans p, e'.trans e⟩⟩

/-- What shows of a cell after the reads shows where only its byte and entry are the same. -/
theorem readExactly_congr {cells : List Addr} {s t u : State} {a : Addr} (h : readExactly cells s u a)
    (hp : physAt t a = physAt u a) (he : entryAt t a = entryAt u a) : readExactly cells s t a := by
  unfold readExactly at h ⊢
  rw [hp, he]
  exact h

/-! ### The canonical form is kept -/

theorem tablesCanonical_memWrite {s : State} (a : Addr) (v : Byte) (h : tablesCanonical s = true) :
    tablesCanonical (memWrite s a v) = true := by
  simp only [tablesCanonical, Bool.and_eq_true, memWrite_phys, memWrite_dt] at h ⊢
  exact ⟨Memory.wf_write v (toNat_lt_memSize a) h.1, h.2⟩

theorem tablesCanonical_scheduleDecay {s : State} (a : Addr) (d : Cycle) (g : Granularity)
    (h : tablesCanonical s = true) : tablesCanonical (scheduleDecay s a d g) = true := by
  simp only [tablesCanonical, Bool.and_eq_true, scheduleDecay_phys, scheduleDecay_dt] at h ⊢
  exact ⟨h.1, DecayTable.wf_insert _ (toNat_lt_memSize a) h.2⟩

theorem tablesCanonical_dropEntry {s : State} (a : Addr) (h : tablesCanonical s = true) :
    tablesCanonical (dropEntry s a) = true := by
  simp only [tablesCanonical, Bool.and_eq_true, dropEntry_phys, dropEntry_dt] at h ⊢
  exact ⟨h.1, DecayTable.wf_erase _ h.2⟩

theorem tablesCanonical_collapse {s : State} (a : Addr) (h : tablesCanonical s = true) :
    tablesCanonical (collapse s a) = true := by
  unfold collapse
  split
  · split
    · exact tablesCanonical_dropEntry a (tablesCanonical_memWrite a _ h)
    · exact h
  · exact h

theorem Memory.wf_storeBytes (bytes : List Byte) (a : Addr) {m : Memory} (h : Memory.wf m = true) :
    Memory.wf (storeBytes bytes a m) = true := by
  induction bytes generalizing a m with
  | nil => exact h
  | cons b rest ih => exact ih (a + 1#16) (Memory.wf_write b (toNat_lt_memSize a) h)

/-- Reset's memory and decay table have the canonical form. -/
theorem tablesCanonical_reset : tablesCanonical State.reset = true := rfl

end Sys2Proof.Machine
end

