-- ==== Sys2Proof/Laws/Operands.lean ====
section
/-! SUPPORT. Redirection and operand resolution only read: their values from logical values, and the state they leave. -/

namespace Sys2Proof.Machine

/-! ### Cells that a collapse would leave alone -/

/-- No entry of cell `a` is due. -/
def settled (s : State) (a : Addr) : Prop := ∀ e, entryAt s a = some e → isDue e s.cycle = false

theorem collapse_of_settled {s : State} {a : Addr} (h : settled s a) : collapse s a = s := by
  cases he : entryAt s a with
  | none => exact collapse_of_none he
  | some e => exact collapse_of_not_due he (h e he)

theorem settled_of_cellKept {s t : State} {a : Addr} (hc : t.cycle = s.cycle) (hk : cellKept s t a)
    (h : settled s a) : settled t a := by
  intro e he
  rcases hk with ⟨_, e1⟩ | ⟨e', he', hd, _, n⟩
  · rw [hc]; exact h e (e1 ▸ he)
  · rw [n] at he; cases he

theorem settled_collapse_self (s : State) (a : Addr) : settled (collapse s a) a := by
  intro e he
  rw [entryAt_collapse, if_pos rfl] at he
  have := (Option.filter_eq_some_iff.mp he).2
  simpa using this

theorem settled_collapse {s : State} {a : Addr} (b : Addr) (h : settled s a) : settled (collapse s b) a :=
  settled_of_cellKept (collapse_cycle s b) (cellKept_collapse s b a) h

/-! ### Redirection -/

@[simp] theorem read16_value (s : State) (a : Addr) : (read16 s a).1 = pointerAt s a := by
  simp [read16, pointerAt]

@[simp] theorem read16_state (s : State) (a : Addr) :
    (read16 s a).2 = collapse (collapse s a) (pointerHighAddr a) := rfl

/-- The address an operand resolves to, from logical values (40_fetch_decode R135). -/
@[simp] theorem resolve_value (s : State) (r : Bool) (a : Addr) : (resolve s r a).1 = effective s r a := by
  cases r
  · rfl
  · exact read16_value s a

/-- The state a resolution leaves: its pointer's cells are read. -/
theorem resolve_state (s : State) (r : Bool) (a : Addr) : (resolve s r a).2 = readAll (pointerCells r a) s := by
  cases r <;> rfl

theorem onlyReads_resolve (s : State) (r : Bool) (a : Addr) : OnlyReads s (resolve s r a).2 :=
  resolve_state s r a ▸ onlyReads_readAll _ s

theorem effective_of_onlyReads {s t : State} (h : OnlyReads s t) (r : Bool) (a : Addr) :
    effective t r a = effective s r a := by
  unfold effective pointerAt
  rw [onlyReads_logicalValue h, onlyReads_logicalValue h]

/-- Resolving an operand again gives the same address and changes nothing (20_memory R74). -/
theorem resolve_again (s : State) (r : Bool) (a : Addr) :
    resolve (resolve s r a).2 r a = ((resolve s r a).1, (resolve s r a).2) := by
  refine Prod.ext ?_ ?_
  · rw [resolve_value, resolve_value]
    exact effective_of_onlyReads (onlyReads_resolve s r a) r a
  · cases r
    · rfl
    · show collapse (collapse (collapse (collapse s a) _) a) _ = collapse (collapse s a) _
      rw [collapse_of_settled (settled_collapse _ (settled_collapse_self s a)),
        collapse_of_settled (settled_collapse_self _ _)]

/-! ### Operands -/

@[simp] theorem operandsTwo_src (s : State) (rs rd : Bool) (a b : Addr) :
    (operandsTwo s rs rd a b).src = effective s rs a := resolve_value s rs a

@[simp] theorem operandsTwo_dst (s : State) (rs rd : Bool) (a b : Addr) :
    (operandsTwo s rs rd a b).dst = effective s rd b :=
  (resolve_value _ rd b).trans (effective_of_onlyReads (onlyReads_resolve s rs a) rd b)

@[simp] theorem operandsOne_src (s : State) (rs : Bool) (a : Addr) :
    (operandsOne s rs a).src = effective s rs a := resolve_value s rs a

@[simp] theorem operandsOne_dst (s : State) (rs : Bool) (a : Addr) :
    (operandsOne s rs a).dst = effective s rs a := resolve_value s rs a

/-- The state the operands' redirections leave. -/
theorem operandsTwo_st (s : State) (rs rd : Bool) (a b : Addr) :
    (operandsTwo s rs rd a b).st = readAll (pointerCells rs a ++ pointerCells rd b) s := by
  rw [readAll_append, ← resolve_state, ← resolve_state]; rfl

theorem operandsOne_st (s : State) (rs : Bool) (a : Addr) :
    (operandsOne s rs a).st = readAll (pointerCells rs a) s := resolve_state s rs a

theorem onlyReads_operandsTwo (s : State) (rs rd : Bool) (a b : Addr) : OnlyReads s (operandsTwo s rs rd a b).st :=
  operandsTwo_st s rs rd a b ▸ onlyReads_readAll _ s

theorem onlyReads_operandsOne (s : State) (rs : Bool) (a : Addr) : OnlyReads s (operandsOne s rs a).st :=
  onlyReads_resolve s rs a

/-! ### The fall-through address and the cycle counter -/

theorem fallThrough_of_fits {s : State} {len : Nat} (h : fits s len) :
    fallThrough s len = some (s.ip + BitVec.ofNat 16 len) := if_pos h

theorem fallThrough_of_not_fits {s : State} {len : Nat} (h : ¬ fits s len) : fallThrough s len = none := if_neg h

theorem fallThrough_eq_some {s : State} {len : Nat} {fp : Addr} (h : fallThrough s len = some fp) :
    fits s len ∧ fp = s.ip + BitVec.ofNat 16 len := by
  unfold fallThrough at h
  split at h
  · rename_i hf; cases h; exact ⟨hf, rfl⟩
  · cases h

theorem fallThrough_eq_none {s : State} {len : Nat} (h : fallThrough s len = none) : ¬ fits s len := by
  intro hf; rw [fallThrough_of_fits hf] at h; cases h

/-- With the counter's width written out, for linear arithmetic. -/
theorem cyclesLeft_iff (s : State) (n : Nat) : cyclesLeft s n ↔ s.cycle.toNat + n < 2 ^ 64 := Iff.rfl

/-- With the fetch limit written out, for linear arithmetic. -/
theorem fits_iff (s : State) (len : Nat) : fits s len ↔ s.ip.toNat + len ≤ 0xFFFF := Iff.rfl

theorem addCycles_of_lt {c : Cycle} {n : Nat} (h : c.toNat + n < 2 ^ Config.params.cycleWidth) :
    addCycles c n = some (c + BitVec.ofNat 64 n) := if_pos h

theorem addCycles_of_ge {c : Cycle} {n : Nat} (h : ¬ c.toNat + n < 2 ^ Config.params.cycleWidth) : addCycles c n = none := if_neg h

theorem addCycles_eq_some {c d : Cycle} {n : Nat} (h : addCycles c n = some d) :
    d = c + BitVec.ofNat 64 n ∧ d.toNat = c.toNat + n := by
  unfold addCycles at h
  split at h
  · rename_i hlt
    cases h
    refine ⟨rfl, ?_⟩
    have hlt' : c.toNat + n < 2 ^ 64 := hlt
    rw [BitVec.toNat_add, BitVec.toNat_ofNat, Nat.mod_eq_of_lt (a := n) (by omega), Nat.mod_eq_of_lt hlt']
  · cases h

end Sys2Proof.Machine
end

