-- ==== Sys2Proof/Laws/Fetch.lean ====
section
/-! SUPPORT. What a fetch answers: the instruction whose logical bytes stand at `IP`, or the fetch error where one of them would
lie at the limit; either way after the reads of `fetchCells`, in that order. -/

namespace Sys2Proof.Machine

/-- A byte fetch below the limit (40_fetch_decode R133). -/
theorem fetchByte_of_ne {fp : Addr} (s : State) (h : fp ≠ Config.params.fetchLimit) :
    fetchByte fp s = .ok (logicalValue s fp) (fp + 1#16) (collapse s fp) := by
  simp [fetchByte, h]

theorem fetchByte_at_limit (s : State) :
    fetchByte Config.params.fetchLimit s = .error (raiseFetchError s Config.params.fetchLimit) := if_pos rfl

/-- A 16-bit address fetch below the limit: the two logical bytes at `fp`, both read (40_fetch_decode R134). -/
theorem fetchAddr_of_le {fp : Addr} (s : State) (h : fp.toNat + 2 ≤ 0xFFFF) :
    fetchAddr fp s = .ok (addrOfBytes (logicalValue s fp) (logicalValue s (fp + 1#16))) (fp + 2#16)
      (readAll (cellsFrom fp 2) s) := by
  have h1 : fp ≠ Config.params.fetchLimit := by
    rintro rfl; revert h; decide
  have h2 : fp + 1#16 ≠ Config.params.fetchLimit := by
    intro e
    have := congrArg BitVec.toNat e
    rw [params_fetchLimit, BitVec.toNat_add] at this
    have e1 : (1#16).toNat = 1 := rfl
    have e2 : (0xFFFF#16).toNat = 0xFFFF := rfl
    omega
  rw [fetchAddr, fetchByte_of_ne s h1]
  dsimp only
  rw [fetchByte_of_ne _ h2]
  dsimp only
  rw [logicalValue_collapse, BitVec.add_assoc]
  rfl

/-- Otherwise it raises the fetch error, and what lies below the limit is read. -/
theorem fetchAddr_of_gt {fp : Addr} (s : State) (h : ¬ fp.toNat + 2 ≤ 0xFFFF) :
    fetchAddr fp s = .error (raiseFetchError (readAll (cellsFrom fp (0xFFFF - fp.toNat)) s) Config.params.fetchLimit) := by
  have hb := fp.isLt
  rcases (by omega : fp.toNat = 0xFFFF ∨ fp.toNat = 0xFFFE) with e | e
  · have h1 : fp = Config.params.fetchLimit := BitVec.eq_of_toNat_eq e
    rw [fetchAddr, h1, fetchByte_at_limit]
    rfl
  · have h1 : fp = 0xFFFE#16 := BitVec.eq_of_toNat_eq e
    have hne : (0xFFFE#16 : Addr) ≠ Config.params.fetchLimit := by decide
    have h2 : (0xFFFE#16 : Addr) + 1#16 = Config.params.fetchLimit := rfl
    rw [h1, fetchAddr, fetchByte_of_ne s hne]
    dsimp only
    rw [h2, fetchByte_at_limit]
    rfl

/-- The instruction the logical bytes at `IP` make, with its second address read where the opcode asks for one. -/
def instrAt (s : State) : Instr :=
  let op := logicalValue s s.ip
  let a := addrOfBytes (logicalValue s (s.ip + 1#16)) (logicalValue s (s.ip + 2#16))
  if instrLength op = 3 then decodeOperands Config.params.wideSel op a 0#16
  else decodeOperands Config.params.wideSel op a
    (addrOfBytes (logicalValue s (s.ip + 3#16)) (logicalValue s (s.ip + 4#16)))

theorem instrLength_cases (op : Byte) : instrLength op = 3 ∨ instrLength op = 5 := by
  unfold instrLength; split <;> simp

/-- A decoded instruction has the length its opcode announces (30_encoding R110). -/
theorem decodeOperands_length (w : Bool) (op : Byte) (a b : Addr) :
    (decodeOperands w op a b).length = instrLength op := by
  unfold decodeOperands instrLength
  by_cases h7 : op[7] = false
  · by_cases h6 : op[6] = false <;> simp [h7, h6, Instr.length]
  · by_cases h6 : op[6] = w <;> by_cases h5 : op[5] = false <;> simp [h7, h6, h5, Instr.length]

theorem instrAt_length (s : State) : (instrAt s).length = instrLength (logicalValue s s.ip) := by
  unfold instrAt
  dsimp only
  split <;> exact decodeOperands_length _ _ _ _

/-- The logical bytes at `IP` decode to `instrAt s`. -/
theorem decode_instrBytes (s : State) : decode (instrBytes s) = .ok (instrAt s, []) := by
  unfold instrBytes instrAt
  rcases instrLength_cases (logicalValue s s.ip) with h | h <;>
  · rw [h]
    show (if instrLength (logicalValue s (s.ip + 0#16)) = 3 then _ else _) = _
    simp only [BitVec.add_zero, h]
    rfl

/-- The source's pointer stands between the two addresses of a decoded 5-byte form; a 3-byte form has none there. -/
theorem sourcePointerCells_decodeOperands (w : Bool) (op : Byte) (a b : Addr) :
    sourcePointerCells (decodeOperands w op a b) =
      if instrLength op = 3 then [] else pointerCells (opRedirectsSource op) a := by
  unfold decodeOperands instrLength
  by_cases h7 : op[7] = false
  · by_cases h6 : op[6] = false <;> simp [h7, h6, sourcePointerCells]
  · by_cases h6 : op[6] = w <;> by_cases h5 : op[5] = false <;> simp [h7, h6, h5, sourcePointerCells]

theorem sourcePointerCells_instrAt (s : State) :
    sourcePointerCells (instrAt s) =
      if instrLength (logicalValue s s.ip) = 3 then []
      else pointerCells (opRedirectsSource (logicalValue s s.ip))
        (addrOfBytes (logicalValue s (s.ip + 1#16)) (logicalValue s (s.ip + 2#16))) := by
  unfold instrAt
  dsimp only
  split <;> rw [sourcePointerCells_decodeOperands] <;> simp [*]

/-- The cells of a fetch, where `n` bytes of the instruction lie below the limit. -/
theorem fetchCells_eq {i : Instr} {s : State} {n : Nat}
    (h : min i.length (Config.params.fetchLimit.toNat - s.ip.toNat) = n) :
    fetchCells i s = (cellsFrom s.ip n).take 3 ++ (if 3 ≤ n then sourcePointerCells i else []) ++ (cellsFrom s.ip n).drop 3 := by
  unfold fetchCells; rw [h]

/-- What the fetch of the instruction at `IP` answers: `instrAt s` where the instruction fits, and the fetch error where it does
not (40_fetch_decode R141); either way the cells of `fetchCells` have been read, in that order. -/
theorem fetchInstr_eq {s : State} (hip : s.ip ≠ Config.params.haltAddr) :
    fetchInstr s = if fits s (instrLength (logicalValue s s.ip))
      then .ok (instrAt s) (s.ip + BitVec.ofNat 16 (instrLength (logicalValue s s.ip))) (readAll (fetchCells (instrAt s) s) s)
      else .error (raiseFetchError (readAll (fetchCells (instrAt s) s) s) Config.params.fetchLimit) := by
  have hne : s.ip ≠ Config.params.fetchLimit := hip
  have hlt : s.ip.toNat < 0xFFFF := by
    have := s.ip.isLt
    have : s.ip.toNat ≠ 0xFFFF := fun e => hip (BitVec.eq_of_toNat_eq e)
    omega
  have hfit : ∀ n, fits s n ↔ s.ip.toNat + n ≤ 0xFFFF := fun n => Iff.rfl
  have hlim : Config.params.fetchLimit.toNat = 0xFFFF := rfl
  have h1 : (s.ip + 1#16).toNat = s.ip.toNat + 1 := by
    rw [BitVec.toNat_add, Nat.mod_eq_of_lt]; rfl
    show s.ip.toNat + 1 < 65536; omega
  have e2 : s.ip + 1#16 + 1#16 = s.ip + 2#16 := by rw [BitVec.add_assoc]; rfl
  have e3 : s.ip + 1#16 + 2#16 = s.ip + 3#16 := by rw [BitVec.add_assoc]; rfl
  have e3' : s.ip + 2#16 + 1#16 = s.ip + 3#16 := by rw [BitVec.add_assoc]; rfl
  have e4 : s.ip + 3#16 + 1#16 = s.ip + 4#16 := by rw [BitVec.add_assoc]; rfl
  have e5 : s.ip + 3#16 + 2#16 = s.ip + 5#16 := by rw [BitVec.add_assoc]; rfl
  have hl := instrAt_length s
  have hsp := sourcePointerCells_instrAt s
  unfold fetchInstr
  rw [fetchByte_of_ne s hne]
  dsimp only
  unfold fetchOperands
  by_cases ha : (s.ip + 1#16).toNat + 2 ≤ 0xFFFF
  · rw [fetchAddr_of_le _ ha]
    dsimp only
    simp only [logicalValue_collapse, e2]
    rcases instrLength_cases (logicalValue s s.ip) with h3 | h5
    · rw [if_pos h3, if_pos ((hfit _).mpr (by omega)), h3, e3,
        fetchCells_eq (n := 3) (by omega)]
      rw [if_pos h3] at hsp
      have hi : instrAt s = decodeOperands Config.params.wideSel (logicalValue s s.ip)
          (addrOfBytes (logicalValue s (s.ip + 1#16)) (logicalValue s (s.ip + 2#16))) 0#16 := if_pos h3
      rw [← hi]
      simp [hsp, cellsFrom, e2]
    · have hn3 : ¬ instrLength (logicalValue s s.ip) = 3 := by omega
      rw [if_neg hn3, h5, e3]
      rw [if_neg hn3] at hsp
      have h3n : (s.ip + 3#16).toNat = s.ip.toNat + 3 := by
        rw [BitVec.toNat_add, Nat.mod_eq_of_lt]; rfl
        show s.ip.toNat + 3 < 65536; omega
      rw [resolve_state]
      have hor : OnlyReads s (readAll (s.ip :: cellsFrom (s.ip + 1#16) 2) s) := onlyReads_readAll _ s
      by_cases hb : (s.ip + 3#16).toNat + 2 ≤ 0xFFFF
      · rw [fetchAddr_of_le _ hb, if_pos ((hfit _).mpr (by omega)), fetchCells_eq (n := 5) (by omega), hsp]
        dsimp only
        have hv : ∀ a l, logicalValue (readAll l (readAll (cellsFrom (s.ip + 1#16) 2) (collapse s s.ip))) a =
            logicalValue s a := fun a l =>
          onlyReads_logicalValue (onlyReads_trans hor (onlyReads_readAll l _)) a
        simp only [hv, e4, e5]
        simp [cellsFrom, readAll_append, e2, e3', e4, instrAt, hn3]
      · rw [fetchAddr_of_gt _ hb, if_neg (fun h => by have := (hfit _).mp h; omega)]
        dsimp only
        rcases (by omega : s.ip.toNat = 0xFFFC ∨ s.ip.toNat = 0xFFFB) with e | e
        · rw [fetchCells_eq (n := 3) (by omega), hsp, show 0xFFFF - (s.ip + 3#16).toNat = 0 by omega]
          simp [cellsFrom, e2]
        · rw [fetchCells_eq (n := 4) (by omega), hsp, show 0xFFFF - (s.ip + 3#16).toNat = 1 by omega]
          simp [cellsFrom, readAll_append, e2, e3']
  · rw [fetchAddr_of_gt _ ha]
    dsimp only
    rcases instrLength_cases (logicalValue s s.ip) with hn | hn <;>
    · rw [if_neg (fun h => by have := (hfit _).mp h; omega)]
      rcases (by omega : s.ip.toNat = 0xFFFE ∨ s.ip.toNat = 0xFFFD) with e | e
      · rw [fetchCells_eq (n := 1) (by omega), show 0xFFFF - (s.ip + 1#16).toNat = 0 by omega]
        simp [cellsFrom]
      · rw [fetchCells_eq (n := 2) (by omega), show 0xFFFF - (s.ip + 1#16).toNat = 1 by omega]
        simp [cellsFrom]

end Sys2Proof.Machine
end

