-- ==== Sys2Proof/Laws/Exec.lean ====
section
/-! SUPPORT. Everything a meaning can do, once for each shared operation: if it answers a next state, one of these cases
holds. -/

namespace Sys2Proof.Machine

/-! ### The channels -/

theorem takeInput_cons {s : State} {b : Byte} {rest : List Byte} (h : s.input = b :: rest) :
    takeInput s = some (b, { s with input := rest, inHist := s.inHist ++ [b] }) := by
  unfold takeInput; rw [h]

theorem takeInput_waiting {s : State} (h : s.input = []) (he : s.inputEnd = false) : takeInput s = none := by
  unfold takeInput; rw [h]; simp [he]

/-- A byte taken from the channel changes the waiting bytes and the input history, nothing else. -/
structure TookInput (s : State) (b : Byte) (t : State) : Prop where
  phys : t.phys = s.phys
  dt : t.dt = s.dt
  flag : t.flag = s.flag
  cycle : t.cycle = s.cycle
  ip : t.ip = s.ip
  ctl : t.ctl = s.ctl
  faultAddr : t.faultAddr = s.faultAddr
  inputEnd : t.inputEnd = s.inputEnd
  outReady : t.outReady = s.outReady
  outHist : t.outHist = s.outHist
  inHist : t.inHist = s.inHist ++ [b]
  input : s.input = b :: t.input ∨
    (s.input = [] ∧ t.input = [] ∧ s.inputEnd = true ∧ Config.eofMode = Config.EofMode.byte b)

theorem tookInput_of_takeInput {s t : State} {b : Byte} (h : takeInput s = some (b, t)) : TookInput s b t := by
  unfold takeInput at h
  split at h
  · rename_i c rest hin
    simp only [Option.some.injEq, Prod.mk.injEq] at h
    obtain ⟨rfl, rfl⟩ := h
    exact ⟨rfl, rfl, rfl, rfl, rfl, rfl, rfl, rfl, rfl, rfl, rfl, Or.inl hin⟩
  · rename_i hin
    split at h
    · rename_i hend
      split at h
      · rename_i v hv
        simp only [Option.some.injEq, Prod.mk.injEq] at h
        obtain ⟨rfl, rfl⟩ := h
        exact ⟨rfl, rfl, rfl, rfl, rfl, rfl, rfl, rfl, rfl, rfl, rfl, Or.inr ⟨hin, hin, hend, hv⟩⟩
      · cases h
    · cases h

/-- Whether the engine must wait depends on the channels alone. -/
theorem takeInput_isNone_of_sameChannels {s t : State} (h : sameChannels s t) :
    (takeInput t).isNone = (takeInput s).isNone := by
  obtain ⟨h1, h2, _, _, _⟩ := h
  unfold takeInput
  rw [h1]
  split
  · rfl
  · rw [h2]; split
    · cases Config.eofMode <;> rfl
    · rfl

theorem portHolds_of_sameChannels {s t : State} (h : sameChannels s t) (dst : Addr) :
    portHolds dst t = portHolds dst s := by
  unfold portHolds
  rw [takeInput_isNone_of_sameChannels h, h.2.2.1]

/-! ### Branches -/

theorem branch_cases {r : Bool} {tgt : Addr} {s t : State} (h : branch r tgt s = .next t) :
    (¬ fits s 3 ∧ t = raiseFetchError s Config.params.fetchLimit) ∨
    (fits s 3 ∧ cyclesLeft s Config.params.costBr ∧
      t = retire (resolve s r tgt).2 (if s.flag then (resolve s r tgt).1 else s.ip + 3#16)
        (s.cycle + BitVec.ofNat 64 Config.params.costBr)) := by
  unfold branch at h
  split at h
  · rename_i hf; cases h; exact Or.inl ⟨fallThrough_eq_none hf, rfl⟩
  · rename_i fp hf
    obtain ⟨hfit, rfl⟩ := fallThrough_eq_some hf
    dsimp only at h
    split at h
    · cases h
    · rename_i c hc
      cases h
      refine Or.inr ⟨hfit, ?_, ?_⟩
      · by_contra hn
        rw [addCycles_of_ge hn] at hc; cases hc
      · rw [(addCycles_eq_some hc).1]

theorem branch_completes {r : Bool} {tgt : Addr} {s : State} (hf : fits s 3)
    (hc : cyclesLeft s Config.params.costBr) :
    branch r tgt s = .next (retire (resolve s r tgt).2 (if s.flag then (resolve s r tgt).1 else s.ip + 3#16)
      (s.cycle + BitVec.ofNat 64 Config.params.costBr)) := by
  unfold branch
  rw [fallThrough_of_fits hf]
  dsimp only
  rw [addCycles_of_lt hc]

/-! ### The NAND proper -/

/-- The state a completed NAND proper leaves. -/
def nandNext (g : Granularity) (src dst fp : Addr) (s : State) : State :=
  scheduleDecay
    (retire
      (setFlag
        (memWrite (collapse (collapse s src) dst) dst (nandResult g (logicalValue s src) (logicalValue s dst)))
        (nandFlag g (logicalValue s src) (logicalValue s dst)))
      fp (s.cycle + BitVec.ofNat 64 (nandCost g)))
    dst (s.cycle + BitVec.ofNat 64 (nandCost g) + BitVec.ofNat 64 Config.params.decayPeriod) g

theorem nandCost_le (g : Granularity) : 1 ≤ nandCost g ∧ nandCost g ≤ 8 := by
  cases g <;> simp [nandCost, params_costNandByte, params_costNandBit]

/-- The cycle counter after an instruction that completes (10_state R37). -/
theorem cycle_add_toNat {s : State} {n : Nat} (h : cyclesLeft s n) :
    (s.cycle + BitVec.ofNat 64 n).toNat = s.cycle.toNat + n :=
  (addCycles_eq_some (addCycles_of_lt h)).2

theorem nandProper_completes {g : Granularity} {src dst fp : Addr} {s : State}
    (h : cyclesLeft s (nandCost g + Config.params.decayPeriod)) :
    nandProper g src dst fp s = .next (nandNext g src dst fp s) := by
  have hp : Config.params.decayPeriod = 128 := rfl
  unfold cyclesLeft at h
  have h1 : s.cycle.toNat + nandCost g < 2 ^ Config.params.cycleWidth := by omega
  have h2 := (addCycles_eq_some (addCycles_of_lt h1)).2
  unfold nandProper
  dsimp only
  rw [addCycles_of_lt h1]
  dsimp only
  rw [addCycles_of_lt (by omega)]
  simp [nandNext]

theorem nandProper_cases {g : Granularity} {src dst fp : Addr} {s t : State}
    (h : nandProper g src dst fp s = .next t) :
    cyclesLeft s (nandCost g + Config.params.decayPeriod) ∧ t = nandNext g src dst fp s := by
  by_cases hc : cyclesLeft s (nandCost g + Config.params.decayPeriod)
  · rw [nandProper_completes hc] at h
    cases h; exact ⟨hc, rfl⟩
  · exfalso
    unfold cyclesLeft at hc
    unfold nandProper at h
    dsimp only at h
    split at h
    · cases h
    · rename_i c hcc
      have := (addCycles_eq_some hcc).2
      rw [addCycles_of_ge (by omega)] at h
      cases h

/-! ### The triggers -/

theorem inTrigger_cases {fp : Addr} {held s t : State} (h : inTrigger fp held s = .next t) :
    (takeInput s = none ∧ t = held) ∨
    (∃ b s1, takeInput s = some (b, s1) ∧ cyclesLeft s Config.params.costIo ∧
      t = retire (setFlag (memWrite s1 Config.params.ioCell b) ioFlag) fp
        (s.cycle + BitVec.ofNat 64 Config.params.costIo)) := by
  unfold inTrigger at h
  split at h
  · rename_i hn; cases h; exact Or.inl ⟨hn, rfl⟩
  · rename_i b s1 hs
    have ht := tookInput_of_takeInput hs
    split at h
    · cases h
    · rename_i c hc
      cases h
      refine Or.inr ⟨b, s1, hs, ?_, ?_⟩
      · by_contra hn
        unfold cyclesLeft at hn
        rw [← ht.cycle] at hn
        rw [addCycles_of_ge hn] at hc; cases hc
      · rw [(addCycles_eq_some hc).1, ht.cycle]

theorem inTrigger_completes {fp : Addr} {held s s1 : State} {b : Byte} (h : takeInput s = some (b, s1))
    (hc : cyclesLeft s Config.params.costIo) :
    inTrigger fp held s = .next (retire (setFlag (memWrite s1 Config.params.ioCell b) ioFlag) fp
      (s.cycle + BitVec.ofNat 64 Config.params.costIo)) := by
  have ht := tookInput_of_takeInput h
  unfold inTrigger
  rw [h]
  dsimp only
  rw [ht.cycle, addCycles_of_lt hc]

theorem outTrigger_cases {fp : Addr} {held s t : State} (h : outTrigger fp held s = .next t) :
    (s.outReady = false ∧ t = held) ∨
    (s.outReady = true ∧ cyclesLeft s Config.params.costIo ∧
      t = retire (setFlag (emitByte (collapse s Config.params.ioCell) (logicalValue s Config.params.ioCell)) ioFlag) fp
        (s.cycle + BitVec.ofNat 64 Config.params.costIo)) := by
  unfold outTrigger at h
  split at h
  · rename_i hr
    dsimp only at h
    split at h
    · cases h
    · rename_i c hc
      cases h
      refine Or.inr ⟨hr, ?_, ?_⟩
      · by_contra hn
        rw [addCycles_of_ge hn] at hc; cases hc
      · rw [(addCycles_eq_some hc).1, memRead_value, memRead_state]
  · rename_i hr
    cases h
    exact Or.inl ⟨by simpa using hr, rfl⟩

theorem outTrigger_completes {fp : Addr} {held s : State} (h : s.outReady = true)
    (hc : cyclesLeft s Config.params.costIo) :
    outTrigger fp held s = .next (retire
      (setFlag (emitByte (collapse s Config.params.ioCell) (logicalValue s Config.params.ioCell)) ioFlag) fp
      (s.cycle + BitVec.ofNat 64 Config.params.costIo)) := by
  unfold outTrigger
  rw [if_pos h]
  dsimp only
  rw [addCycles_of_lt hc, memRead_value, memRead_state]

/-! ### Dispatch -/

/-- Everything a NAND can do once it is decoded: hold, input, output, or the NAND proper (42_nand_io R183). -/
theorem dispatch_cases {g : Granularity} {fp : Addr} {held t : State} {o : Operands}
    (h : dispatch g fp held o = .next t) :
    (portHolds o.dst o.st = true ∧ t = held) ∨
    (o.dst = Config.params.inTrig ∧ ∃ b s1, takeInput o.st = some (b, s1) ∧ cyclesLeft o.st Config.params.costIo ∧
      t = retire (setFlag (memWrite s1 Config.params.ioCell b) ioFlag) fp
        (o.st.cycle + BitVec.ofNat 64 Config.params.costIo)) ∨
    (o.dst = Config.params.outTrig ∧ o.st.outReady = true ∧ cyclesLeft o.st Config.params.costIo ∧
      t = retire (setFlag (emitByte (collapse o.st Config.params.ioCell) (logicalValue o.st Config.params.ioCell)) ioFlag)
        fp (o.st.cycle + BitVec.ofNat 64 Config.params.costIo)) ∨
    (¬ isTrigger o.dst ∧ cyclesLeft o.st (nandCost g + Config.params.decayPeriod) ∧
      t = nandNext g o.src o.dst fp o.st) := by
  unfold dispatch at h
  split at h
  · rename_i hin
    rcases inTrigger_cases h with ⟨hn, ht⟩ | ht
    · exact Or.inl ⟨by simp [portHolds, hin, hn], ht⟩
    · exact Or.inr (Or.inl ⟨hin, ht⟩)
  · rename_i hin
    split at h
    · rename_i hout
      rcases outTrigger_cases h with ⟨hn, ht⟩ | ht
      · exact Or.inl ⟨by simp [portHolds, hout, hn], ht⟩
      · exact Or.inr (Or.inr (Or.inl ⟨hout, ht⟩))
    · rename_i hout
      obtain ⟨hc, ht⟩ := nandProper_cases h
      exact Or.inr (Or.inr (Or.inr ⟨by rintro (h | h) <;> contradiction, hc, ht⟩))

theorem inTrig_ne_outTrig : Config.params.inTrig ≠ Config.params.outTrig := by decide

/-- While its channel is not ready a NAND at a trigger leaves the state it started from (92_eei D15). -/
theorem dispatch_holds {g : Granularity} {fp : Addr} {held : State} {o : Operands}
    (h : portHolds o.dst o.st = true) : dispatch g fp held o = .next held := by
  unfold portHolds at h
  unfold dispatch
  by_cases hin : o.dst = Config.params.inTrig
  · rw [if_pos hin]
    have hne : (Config.params.inTrig == Config.params.outTrig) = false := by decide
    simp only [hin, hne, beq_self_eq_true, Bool.true_and, Bool.false_and, Bool.or_false, Option.isNone_iff_eq_none] at h
    unfold inTrigger
    rw [h]
  · rw [if_neg hin]
    have hne : (o.dst == Config.params.inTrig) = false := by simpa using hin
    simp only [hne, Bool.false_and, Bool.false_or, Bool.and_eq_true, beq_iff_eq, Bool.not_eq_true'] at h
    rw [if_pos h.1]
    unfold outTrigger
    rw [h.2]
    rfl

/-! ### What one completed step of each kind keeps -/

/-- The cells, registers and channels after a NAND proper (42_nand_io R186, R188). -/
theorem nandNext_physAt (g : Granularity) (src dst fp : Addr) (s : State) :
    physAt (nandNext g src dst fp s) dst = nandResult g (logicalValue s src) (logicalValue s dst) := by
  simp [nandNext]

theorem nandNext_entryAt (g : Granularity) (src dst fp : Addr) (s : State) :
    entryAt (nandNext g src dst fp s) dst =
      some ⟨s.cycle + BitVec.ofNat 64 (nandCost g) + BitVec.ofNat 64 Config.params.decayPeriod, g⟩ := by
  simp [nandNext]

theorem nandNext_cellKept (g : Granularity) (src dst fp : Addr) (s : State) {a : Addr} (h : a ≠ dst) :
    cellKept s (nandNext g src dst fp s) a := by
  have hk := cellKept_trans (collapse_cycle s src) (cellKept_collapse s src a) (cellKept_collapse (collapse s src) dst a)
  have hp : physAt (nandNext g src dst fp s) a = physAt (collapse (collapse s src) dst) a := by
    simp [nandNext, h]
  have he : entryAt (nandNext g src dst fp s) a = entryAt (collapse (collapse s src) dst) a := by
    simp [nandNext, h]
  unfold cellKept at hk ⊢
  rw [hp, he]
  exact hk

/-- A cell that a NAND proper does not write shows the reads of source and destination, no other (42_nand_io R186, R188). -/
theorem nandNext_readExactly (g : Granularity) (src dst fp : Addr) (s : State) {a : Addr} (h : a ≠ dst) :
    readExactly [src, dst] s (nandNext g src dst fp s) a :=
  readExactly_congr (readExactly_readAll [src, dst] s a) (by simp [nandNext, h]) (by simp [nandNext, h])

@[simp] theorem nandNext_flag (g : Granularity) (src dst fp : Addr) (s : State) :
    (nandNext g src dst fp s).flag = nandFlag g (logicalValue s src) (logicalValue s dst) := rfl
@[simp] theorem nandNext_cycle (g : Granularity) (src dst fp : Addr) (s : State) :
    (nandNext g src dst fp s).cycle = s.cycle + BitVec.ofNat 64 (nandCost g) := rfl
@[simp] theorem nandNext_ip (g : Granularity) (src dst fp : Addr) (s : State) :
    (nandNext g src dst fp s).ip = fp := rfl

theorem nandNext_sameStatus (g : Granularity) (src dst fp : Addr) (s : State) :
    sameStatus s (nandNext g src dst fp s) := by simp [sameStatus, nandNext]

theorem nandNext_sameChannels (g : Granularity) (src dst fp : Addr) (s : State) :
    sameChannels s (nandNext g src dst fp s) := by simp [sameChannels, nandNext]

end Sys2Proof.Machine
end

