-- ==== Sys2Proof/Laws/PerInstr.lean ====
section
/-! SUPPORT. The family stated once per instruction: the length that the opcode byte alone gives (30_encoding R110) is the
length of the instruction and of its encoding, for both values of `WIDE_SEL`. -/

namespace Sys2Proof.Laws.LengthByOpcode

/-- The encoding has the instruction's length, and its first byte announces that length. -/
def Statement (i : Instr) : Prop :=
  ∀ w : Bool, (encodeWith w i).length = i.length ∧ (encodeWith w i).head?.map instrLength = some i.length

theorem instrLength_br : ∀ ign : BitVec 6, instrLength (0#2 ++ ign) = 3 := by decide
theorem instrLength_brR : ∀ ign : BitVec 6, instrLength (1#2 ++ ign) = 3 := by decide
theorem instrLength_nandOpcode :
    ∀ (w s : Bool) (idx : BitIndex) (rs rd : Bool), instrLength (nandOpcode w s idx rs rd) = if s then 3 else 5 := by
  decide

theorem br (ign : BitVec 6) (t : Addr) : Statement (.br ign t) :=
  fun _ => ⟨rfl, congrArg some (instrLength_br ign)⟩

theorem brR (ign : BitVec 6) (t : Addr) : Statement (.brR ign t) :=
  fun _ => ⟨rfl, congrArg some (instrLength_brR ign)⟩

theorem nandw (ign : BitIndex) (rs rd : Bool) (src dst : Addr) : Statement (.nandw ign rs rd src dst) :=
  fun w => ⟨rfl, congrArg some (instrLength_nandOpcode w false ign rs rd)⟩

theorem nandwS (ign : BitIndex) (rs ignRd : Bool) (a : Addr) : Statement (.nandwS ign rs ignRd a) :=
  fun w => ⟨rfl, congrArg some (instrLength_nandOpcode w true ign rs ignRd)⟩

theorem nandbit (idx : BitIndex) (rs rd : Bool) (src dst : Addr) : Statement (.nandbit idx rs rd src dst) :=
  fun w => ⟨rfl, congrArg some (instrLength_nandOpcode (!w) false idx rs rd)⟩

theorem nandbitS (idx : BitIndex) (rs ignRd : Bool) (a : Addr) : Statement (.nandbitS idx rs ignRd a) :=
  fun w => ⟨rfl, congrArg some (instrLength_nandOpcode (!w) true idx rs ignRd)⟩

end Sys2Proof.Laws.LengthByOpcode
end

