-- ==== Sys2Proof/Laws/Step.lean ====
section
/-! SUPPORT. Everything a step can do, once. -/

namespace Sys2Proof.Machine

/-- The two shapes of a meaning whose instruction fits at `IP`: a branch, or a NAND dispatched on the operands its redirections
give; each reads the cells of its redirections. -/
theorem exec_shape {i : Instr} {s : State} (hf : fits s i.length) :
    (i.isBranch = true ∧ destination i s = none ∧ source i s = none ∧ waits i s = false ∧
      cycleCost i s = Config.params.costBr ∧ i.length = 3 ∧
      ∃ r tgt, exec i s = branch r tgt s ∧ operandCells i = pointerCells r tgt) ∨
    (i.isBranch = false ∧ ∃ g o, exec i s = dispatch g (s.ip + BitVec.ofNat 16 i.length) s o ∧
      o.st = readAll (operandCells i) s ∧ source i s = some o.src ∧
      destination i s = some o.dst ∧ waits i s = portHolds o.dst s ∧
      (isTrigger o.dst → cycleCost i s = Config.params.costIo) ∧
      (¬ isTrigger o.dst → cycleCost i s = nandCost g)) := by
  cases i with
  | br ign tgt => exact Or.inl ⟨rfl, rfl, rfl, rfl, rfl, rfl, false, tgt, rfl, rfl⟩
  | brR ign tgt => exact Or.inl ⟨rfl, rfl, rfl, rfl, rfl, rfl, true, tgt, rfl, rfl⟩
  | nandw ign rs rd a b =>
    refine Or.inr ⟨rfl, .byte, operandsTwo s rs rd a b, ?_, operandsTwo_st s rs rd a b, rfl, rfl, rfl, ?_, ?_⟩
    · show nandTwo _ rs rd a b s = _
      unfold nandTwo; rw [show fallThrough s 5 = _ from fallThrough_of_fits hf]; rfl
    · intro h; simp only [cycleCost, destination, Option.some.injEq]; exact if_pos h
    · intro h; simp only [cycleCost, destination, Option.some.injEq]; exact if_neg h
  | nandwS ign rs d a =>
    refine Or.inr ⟨rfl, .byte, operandsOne s rs a, ?_, operandsOne_st s rs a, rfl, rfl, rfl, ?_, ?_⟩
    · show nandOne _ rs a s = _
      unfold nandOne; rw [show fallThrough s 3 = _ from fallThrough_of_fits hf]; rfl
    · intro h; simp only [cycleCost, destination, Option.some.injEq]; exact if_pos h
    · intro h; simp only [cycleCost, destination, Option.some.injEq]; exact if_neg h
  | nandbit idx rs rd a b =>
    refine Or.inr ⟨rfl, .bit idx, operandsTwo s rs rd a b, ?_, operandsTwo_st s rs rd a b, rfl, rfl, rfl, ?_, ?_⟩
    · show nandTwo _ rs rd a b s = _
      unfold nandTwo; rw [show fallThrough s 5 = _ from fallThrough_of_fits hf]; rfl
    · intro h; simp only [cycleCost, destination, Option.some.injEq]; exact if_pos h
    · intro h; simp only [cycleCost, destination, Option.some.injEq]; exact if_neg h
  | nandbitS idx rs d a =>
    refine Or.inr ⟨rfl, .bit idx, operandsOne s rs a, ?_, operandsOne_st s rs a, rfl, rfl, rfl, ?_, ?_⟩
    · show nandOne _ rs a s = _
      unfold nandOne; rw [show fallThrough s 3 = _ from fallThrough_of_fits hf]; rfl
    · intro h; simp only [cycleCost, destination, Option.some.injEq]; exact if_pos h
    · intro h; simp only [cycleCost, destination, Option.some.injEq]; exact if_neg h

/-- Operand resolution in a state that only reads have changed: same destination, same wait, same cost. -/
theorem destination_of_onlyReads {s t : State} (h : OnlyReads s t) (i : Instr) : destination i t = destination i s := by
  cases i <;> simp only [destination, operandsTwo_dst, operandsOne_dst, effective_of_onlyReads h]

theorem source_of_onlyReads {s t : State} (h : OnlyReads s t) (i : Instr) : source i t = source i s := by
  cases i <;> simp only [source, operandsTwo_src, operandsOne_src, effective_of_onlyReads h]

theorem cycleCost_of_onlyReads {s t : State} (h : OnlyReads s t) (i : Instr) : cycleCost i t = cycleCost i s := by
  cases i <;> simp only [cycleCost, destination_of_onlyReads h]

theorem waits_of_onlyReads {s t : State} (h : OnlyReads s t) (i : Instr) : waits i t = waits i s := by
  cases i <;> simp only [waits, operandsTwo_dst, operandsOne_dst, effective_of_onlyReads h,
    portHolds_of_sameChannels h.channels]

/-- A step in RUNNING, away from the halt sentinel, whose instruction fits: its fetch reads, then it holds or runs
(40_fetch_decode R146). -/
theorem step_of_fits {s : State} (hc : s.ctl = .running) (hip : s.ip ≠ Config.params.haltAddr)
    (hf : fits s (instrLength (logicalValue s s.ip))) :
    step s = if waits (instrAt s) s then .next s
      else exec (instrAt s) (readAll (fetchCells (instrAt s) s) s) := by
  unfold step
  rw [hc]
  dsimp only
  rw [if_neg hip, fetchInstr_eq hip, if_pos hf]
  dsimp only
  rw [waits_of_onlyReads (onlyReads_readAll _ s)]

/-- The same where the instruction does not fit: the fetch error, after the reads below the limit (60_exceptions R224). -/
theorem step_of_not_fits {s : State} (hc : s.ctl = .running) (hip : s.ip ≠ Config.params.haltAddr)
    (hf : ¬ fits s (instrLength (logicalValue s s.ip))) :
    step s = .next (raiseFetchError (readAll (fetchCells (instrAt s) s) s) Config.params.fetchLimit) := by
  unfold step
  rw [hc]
  dsimp only
  rw [if_neg hip, fetchInstr_eq hip, if_neg hf]

theorem step_of_not_running {s : State} (hc : s.ctl ≠ .running) : step s = .next s := by
  unfold step
  cases h : s.ctl with
  | running => exact absurd h hc
  | halted => rfl
  | fatal => rfl

theorem step_at_haltAddr {s : State} (hc : s.ctl = .running) (hip : s.ip = Config.params.haltAddr) :
    step s = .next (enterHalted s) := by
  unfold step
  rw [hc]
  exact if_pos hip

/-- What a completed instruction `i` leaves, told from the state `s` before it and the `cells` that its fetch and its redirections
read: a branch; the read-trigger; the write-trigger; the NAND proper. -/
def Completed (cells : List Addr) (i : Instr) (s t : State) : Prop :=
  (destination i s = none ∧ source i s = none ∧ i.isBranch = true ∧ cycleCost i s = Config.params.costBr ∧
    cyclesLeft s Config.params.costBr ∧
    ∃ p, t = retire (readAll cells s) p (s.cycle + BitVec.ofNat 64 Config.params.costBr)) ∨
  (destination i s = some Config.params.inTrig ∧ i.isBranch = false ∧ cycleCost i s = Config.params.costIo ∧
    cyclesLeft s Config.params.costIo ∧ ∃ b s1, takeInput (readAll cells s) = some (b, s1) ∧
      t = retire (setFlag (memWrite s1 Config.params.ioCell b) ioFlag) (s.ip + BitVec.ofNat 16 i.length)
        (s.cycle + BitVec.ofNat 64 Config.params.costIo)) ∨
  (destination i s = some Config.params.outTrig ∧ i.isBranch = false ∧ cycleCost i s = Config.params.costIo ∧
    cyclesLeft s Config.params.costIo ∧
      t = retire (setFlag (emitByte (collapse (readAll cells s) Config.params.ioCell) (logicalValue s Config.params.ioCell))
        ioFlag) (s.ip + BitVec.ofNat 16 i.length) (s.cycle + BitVec.ofNat 64 Config.params.costIo)) ∨
  (∃ g x y, source i s = some x ∧ destination i s = some y ∧ i.isBranch = false ∧ ¬ isTrigger y ∧
    cycleCost i s = nandCost g ∧ cyclesLeft s (nandCost g + Config.params.decayPeriod) ∧
    t = nandNext g x y (s.ip + BitVec.ofNat 16 i.length) (readAll cells s))

theorem cyclesLeft_of_onlyReads {s t : State} (h : OnlyReads s t) (n : Nat) : cyclesLeft t n ↔ cyclesLeft s n := by
  unfold cyclesLeft; rw [h.cycle]

/-- What was completed after reads was completed from the state before them. -/
theorem completed_of_readAll {pre cells : List Addr} {i : Instr} {s t : State} (h : Completed cells i (readAll pre s) t) :
    Completed (pre ++ cells) i s t := by
  have hv := onlyReads_readAll pre s
  unfold Completed at h ⊢
  simp only [destination_of_onlyReads hv, source_of_onlyReads hv, cycleCost_of_onlyReads hv, cyclesLeft_of_onlyReads hv,
    hv.cycle, hv.ip, onlyReads_logicalValue hv, ← readAll_append] at h
  exact h

/-- A meaning whose instruction fits and that answers a next state holds on a channel or has completed. -/
theorem exec_cases {i : Instr} {s t : State} (hf : fits s i.length) (h : exec i s = .next t) :
    (waits i s = true ∧ t = s) ∨ Completed (operandCells i) i s t := by
  rcases exec_shape hf with ⟨hb, hd, hsrc, _, hc, hl, r, tgt, he, hcells⟩ | ⟨hb, g, o, he, ho, hsrc, hd, hw, hct, hcn⟩
  · rw [he] at h
    rw [hl] at hf
    rcases branch_cases h with ⟨hn, _⟩ | ⟨_, hcy, ht⟩
    · exact absurd hf hn
    · exact Or.inr (Or.inl ⟨hd, hsrc, hb, hc, hcy, _, by rw [ht, hcells, resolve_state]⟩)
  · rw [he] at h
    have hr := onlyReads_readAll (operandCells i) s
    rw [← ho] at hr
    have hcyc := cyclesLeft_of_onlyReads hr
    rcases dispatch_cases h with ⟨hh, ht⟩ | ⟨hin, b, s1, hti, hcy, ht⟩ | ⟨hout, hrd, hcy, ht⟩ | ⟨hnt, hcy, ht⟩
    · exact Or.inl ⟨by rw [hw, ← portHolds_of_sameChannels hr.channels]; exact hh, ht⟩
    · exact Or.inr (Or.inr (Or.inl ⟨hin ▸ hd, hb, hct (Or.inl hin), (hcyc _).mp hcy, b, s1, ho ▸ hti,
        by rw [ht, hr.cycle]⟩))
    · exact Or.inr (Or.inr (Or.inr (Or.inl ⟨hout ▸ hd, hb, hct (Or.inr hout), (hcyc _).mp hcy,
        by rw [ht, hr.cycle, onlyReads_logicalValue hr, ho]⟩)))
    · exact Or.inr (Or.inr (Or.inr (Or.inr ⟨g, o.src, o.dst, hsrc, hd, hb, hnt, hcn hnt, (hcyc _).mp hcy, by rw [ht, ho]⟩)))

/-- Everything a step can do: nothing in a terminal state; the halt transition; the fetch error; a hold on a channel; or the
instruction `instrAt s`, completed. -/
theorem step_completed {s t : State} (h : step s = .next t) :
    (s.ctl ≠ .running ∧ t = s) ∨
    (s.ctl = .running ∧ s.ip = Config.params.haltAddr ∧ t = enterHalted s) ∨
    (s.ctl = .running ∧ s.ip ≠ Config.params.haltAddr ∧ ¬ fits s (instrAt s).length ∧
      t = raiseFetchError (readAll (fetchCells (instrAt s) s) s) Config.params.fetchLimit) ∨
    (s.ctl = .running ∧ s.ip ≠ Config.params.haltAddr ∧ fits s (instrAt s).length ∧
      ((waits (instrAt s) s = true ∧ t = s) ∨
        (waits (instrAt s) s = false ∧
          Completed (fetchCells (instrAt s) s ++ operandCells (instrAt s)) (instrAt s) s t))) := by
  by_cases hc : s.ctl = .running
  · by_cases hip : s.ip = Config.params.haltAddr
    · rw [step_at_haltAddr hc hip] at h
      cases h; exact Or.inr (Or.inl ⟨hc, hip, rfl⟩)
    · rw [instrAt_length]
      by_cases hf : fits s (instrLength (logicalValue s s.ip))
      · refine Or.inr (Or.inr (Or.inr ⟨hc, hip, hf, ?_⟩))
        rw [step_of_fits hc hip hf] at h
        have hr := onlyReads_readAll (fetchCells (instrAt s) s) s
        split at h
        · rename_i hw; cases h; exact Or.inl ⟨hw, rfl⟩
        · rename_i hw
          have hfl : fits (readAll (fetchCells (instrAt s) s) s) (instrAt s).length := by
            unfold fits at hf ⊢; rw [hr.ip, instrAt_length]; exact hf
          refine Or.inr ⟨by simpa using hw, ?_⟩
          rcases exec_cases hfl h with ⟨hw', _⟩ | hx
          · rw [waits_of_onlyReads hr] at hw'; exact absurd hw' hw
          · exact completed_of_readAll hx
      · rw [step_of_not_fits hc hip hf] at h
        cases h; exact Or.inr (Or.inr (Or.inl ⟨hc, hip, hf, rfl⟩))
  · rw [step_of_not_running hc] at h
    cases h; exact Or.inl ⟨hc, rfl⟩

/-- A run takes its steps one by one. -/
theorem run_next {s t : State} (n : Nat) (h : step s = .next t) : Sys2Proof.core.run (n + 1) s = Sys2Proof.core.run n t := by
  have h' : Sys2Proof.core.step s = .next t := h
  show Host.Core.run Sys2Proof.core (n + 1) s = _
  simp only [Host.Core.run, h']

/-- A run whose first step is refused is refused. -/
theorem run_refused {s : State} {r : Refusal} (n : Nat) (h : step s = .refused r) :
    Sys2Proof.core.run (n + 1) s = .refused r := by
  have h' : Sys2Proof.core.step s = .refused r := h
  show Host.Core.run Sys2Proof.core (n + 1) s = _
  simp only [Host.Core.run, h']

end Sys2Proof.Machine
end

