-- ==== Sys2Proof/Tests/Slice0.lean ====
section
/-! SUPPORT. Tests of the model: expected results are the spec's own vectors (95_test_vectors, named E, VF, VJ, VW, VB, VI) or are
written out from its encoding tables; then, for every obligation with hypotheses, a witness that meets them together. -/

namespace Sys2Proof.Tests

open Sys2Proof.Machine

/-! ### Helpers -/

/-- The reset state with the bytes placed at `a` and the engine about to run there. -/
def running (a : Addr) (bytes : List Byte) : State :=
  { State.reset with phys := storeBytes bytes a [], ip := a }

/-- More bytes placed at `a`. -/
def State.put (s : State) (a : Addr) (bytes : List Byte) : State := { s with phys := storeBytes bytes a s.phys }

/-- A decay entry placed at `a`. -/
def State.entry (s : State) (a : Addr) (d : Cycle) (g : Granularity) : State := scheduleDecay s a d g

/-- A view of the next state, where there is one. -/
def view {α : Type} (f : State → α) (o : Host.Outcome State Fault Refusal) : Option α :=
  match o with
  | .next t => some (f t)
  | .fault _ => none
  | .refused _ => none

/-- The reason of a refusal, where there is one. -/
def refusalOf (o : Host.Outcome State Fault Refusal) : Option Refusal :=
  match o with
  | .next _ => none
  | .fault _ => none
  | .refused r => some r

/-- The registers a completed instruction writes. -/
def regs (t : State) : Addr × Bool × Cycle := (t.ip, t.flag, t.cycle)

/-! ### WellFormed: an ill-formed term for each check -/

theorem test_wf_br_ignored : Instr.wellFormed (.br 0x20#6 0x0300#16) = false := by decide
theorem test_wf_brR_ignored : Instr.wellFormed (.brR 0x01#6 0x0300#16) = false := by decide
theorem test_wf_nandw_ignored : Instr.wellFormed (.nandw 7#3 false false 0x0100#16 0x0101#16) = false := by decide
theorem test_wf_nandwS_ignored : Instr.wellFormed (.nandwS 4#3 false false 0x0100#16) = false := by decide
theorem test_wf_nandwS_ignored_rd : Instr.wellFormed (.nandwS 0#3 false true 0x0100#16) = false := by decide
theorem test_wf_nandbitS_ignored_rd : Instr.wellFormed (.nandbitS 6#3 true true 0x0100#16) = false := by decide
theorem test_wf_accepts : Instr.wellFormed (.nandbit 7#3 true true 0xFFFF#16 0xFFFF#16) = true := by decide

/-! ### Decode: words written out bit by bit from 30_encoding R102, R103, R106 to R109 -/

/-- `00 000000`, address low byte 34, high byte 12. -/
theorem test_decode_br :
    decode [0b00000000#8, 0x34#8, 0x12#8] = .ok (.br 0#6 0x1234#16, []) := by decide
/-- `01 000001`: bits 5..0 ignored and kept. -/
theorem test_decode_brR :
    decode [0b01000001#8, 0xFE#8, 0xFF#8, 0xAA#8] = .ok (.brR 1#6 0xFFFE#16, [0xAA#8]) := by decide
/-- `1 1 0 000 1 0`: class, W, S, IDX, RS, RD. -/
theorem test_decode_nandw :
    decode [0b11000010#8, 0x01#8, 0x02#8, 0x03#8, 0x04#8] =
      .ok (.nandw 0#3 true false 0x0201#16 0x0403#16, []) := by decide
/-- `1 1 1 101 0 1`: IDX and RD ignored and kept, no second address. -/
theorem test_decode_nandwS :
    decode [0b11110101#8, 0x00#8, 0x01#8, 0x55#8, 0x66#8] =
      .ok (.nandwS 5#3 false true 0x0100#16, [0x55#8, 0x66#8]) := by decide
/-- `1 0 0 110 0 1`: IDX 6, with `op[4]` most significant. -/
theorem test_decode_nandbit :
    decode [0b10011001#8, 0x00#8, 0x01#8, 0x01#8, 0x01#8] =
      .ok (.nandbit 6#3 false true 0x0100#16 0x0101#16, []) := by decide
/-- `1 0 1 001 1 0`: IDX 1. -/
theorem test_decode_nandbitS :
    decode [0b10100110#8, 0x00#8, 0x01#8] = .ok (.nandbitS 1#3 true false 0x0100#16, []) := by decide
/-- E6: 0xFF is a whole-byte NAND with `WIDE_SEL` 1 and a single-bit NAND with `WIDE_SEL` 0. -/
theorem test_decode_wideSel :
    decodeWith true [0xFF#8, 0xFF#8, 0x00#8] = .ok (.nandwS 7#3 true true 0x00FF#16, []) ∧
    decodeWith false [0xFF#8, 0xFF#8, 0x00#8] = .ok (.nandbitS 7#3 true true 0x00FF#16, []) := by decide
theorem test_decode_rejects_no_opcode : decode [] = .error .noOpcode := by decide
theorem test_decode_rejects_one_byte : decode [0x00#8] = .error .truncatedFirstAddress := by decide
theorem test_decode_rejects_two_bytes : decode [0xC0#8, 0x00#8] = .error .truncatedFirstAddress := by decide
theorem test_decode_rejects_three_bytes : decode [0xC0#8, 0x00#8, 0x01#8] = .error .truncatedSecondAddress := by decide
theorem test_decode_rejects_four_bytes :
    decode [0x80#8, 0x00#8, 0x01#8, 0x02#8] = .error .truncatedSecondAddress := by decide
/-- The host's numbering: bit 0 is the least significant bit of the first byte. -/
theorem test_decodeTableWord_br : decodeTableWord 24 0x123400 = some (.br 0#6 0x1234#16) := by decide
theorem test_decodeTableWord_nandw :
    decodeTableWord 40 0x01040100C3 = some (.nandw 0#3 true true 0x0100#16 0x0104#16) := by decide
theorem test_decodeTableWord_short : decodeTableWord 8 0x8C = some (.nandbit 3#3 false false 0#16 0#16) := by decide
theorem test_encode_nandbitS : encode (.nandbitS 6#3 true false 0x0100#16) = [0xBA#8, 0x00#8, 0x01#8] := by decide
theorem test_encode_nandw :
    encode (.nandw 0#3 true true 0x0100#16 0x0104#16) = [0xC3#8, 0x00#8, 0x01#8, 0x04#8, 0x01#8] := by decide

/-! ### One step of each instruction, from the spec's vectors -/

/-- VJ1: not taken. -/
theorem test_step_br_not_taken :
    view regs (step { running 0x0200#16 [0x00, 0x00, 0x03] with cycle := 5 }) = some (0x0203, false, 6) := by decide
/-- VJ5: taken, ignored bits set. -/
theorem test_step_br_taken :
    view regs (step { running 0x0200#16 [0x3F, 0x00, 0x03] with cycle := 5, flag := true }) =
      some (0x0300, true, 6) := by decide
/-- VJ4. -/
theorem test_step_brR_taken :
    view regs (step { State.put (running 0x0200#16 [0x40, 0x00, 0x03]) 0x0300#16 [0x34, 0x12] with
      cycle := 5, flag := true }) = some (0x1234, true, 6) := by decide
/-- VJ7: a pointer at 0xFFFF takes its high byte from 0x0000. -/
theorem test_step_brR_pointer_wraps :
    view regs (step { State.put (running 0x0000#16 [0x40, 0xFF, 0xFF]) 0xFFFF#16 [0x34] with flag := true }) =
      some (0x4034, true, 1) := by decide
/-- VW3. -/
theorem test_step_nandw :
    view (fun t => (regs t, physAt t 0x101, entryAt t 0x101, physAt t 0x100))
      (step (State.put (running 0x0000#16 [0xC0, 0x00, 0x01, 0x01, 0x01]) 0x0100#16 [0x0F, 0x3C])) =
      some ((0x0005, true, 8), 0xF3, some ⟨136, .byte⟩, 0x0F) := by decide
/-- VW17: source redirected at 0xFFFF. -/
theorem test_step_nandw_redirected :
    view (fun t => (regs t, physAt t 0x100))
      (step (State.put (State.put (running 0x0000#16 [0xC2, 0xFF, 0xFF, 0x00, 0x01]) 0x0100#16 [0xFF]) 0xFFFF#16 [0x10])) =
      some ((0x0005, true, 8), 0xFF) := by decide
/-- VW11: a result of 0 clears FLAG. -/
theorem test_step_nandwS :
    view (fun t => (regs t, physAt t 0x100, entryAt t 0x100))
      (step { State.put (running 0x0000#16 [0xE0, 0x00, 0x01]) 0x0100#16 [0xFF] with cycle := 8 }) =
      some ((0x0003, false, 16), 0x00, some ⟨144, .byte⟩) := by decide
/-- VI1: NANDW.S at the read-trigger. -/
theorem test_step_nandwS_input :
    view (fun t => (regs t, physAt t 0xFFFF, entryAt t 0xFFFF, t.input, t.inHist))
      (step { running 0x0000#16 [0xE0, 0xFD, 0xFF] with input := [0x41, 0x42] }) =
      some ((0x0003, true, 1), 0x41, none, [0x42], [0x41]) := by decide
/-- VB13: FLAG is the result bit, not the result byte. -/
theorem test_step_nandbit :
    view (fun t => (regs t, physAt t 0x101, entryAt t 0x101))
      (step (State.put (running 0x0000#16 [0x8C, 0x00, 0x01, 0x01, 0x01]) 0x0100#16 [0x08, 0xFF])) =
      some ((0x0005, false, 1), 0xF7, some ⟨129, .bit 3⟩) := by decide
/-- VB16: the destination's due entry is applied first. -/
theorem test_step_nandbit_due_destination :
    view (fun t => (regs t, physAt t 0x100, entryAt t 0x100))
      (step { State.entry (State.put (running 0x0000#16 [0x80, 0x01, 0x01, 0x00, 0x01]) 0x0100#16 [0xFF, 0x01])
        0x0100#16 0 .byte with cycle := 5 }) =
      some ((0x0005, true, 6), 0x01, some ⟨134, .bit 0⟩) := by decide
/-- VB15: the one operand redirected. -/
theorem test_step_nandbitS :
    view (fun t => (regs t, physAt t 0x200, entryAt t 0x200, physAt t 0x101))
      (step (State.put (running 0x0000#16 [0xBA, 0x00, 0x01]) 0x0100#16 [0x00, 0x02])) =
      some ((0x0003, true, 1), 0x40, some ⟨129, .bit 6⟩, 0x02) := by decide
/-- VI3: NANDBIT.S at the write-trigger. -/
theorem test_step_nandbitS_output :
    view (fun t => (regs t, t.outHist, t.dt))
      (step (State.put (running 0x0000#16 [0xB4, 0xFE, 0xFF]) 0xFFFF#16 [0x7A])) =
      some ((0x0003, true, 1), [0x7A], []) := by decide

/-! ### The control state machine, decay and I/O -/

/-- VF4. -/
theorem test_fetch_error_br :
    view (fun t => (t.ctl, t.faultAddr, regs t)) (step (running 0xFFFD#16 [0x00])) =
      some (.fatal, 0xFFFF, 0xFFFD, false, 0) := by decide
/-- VF14, VF13: the second address of a NANDW at 0xFFFB does not fit, at 0xFFFA it does. -/
theorem test_fetch_error_nandw :
    view (fun t => (t.ctl, t.faultAddr, regs t)) (step (running 0xFFFB#16 [0xC0])) =
      some (.fatal, 0xFFFF, 0xFFFB, false, 0) ∧
    view (fun t => (t.ctl, t.faultAddr, regs t)) (step (running 0xFFFA#16 [0xC0])) =
      some (.running, 0x0000, 0xFFFF, true, 8) := by decide
/-- VF19. -/
theorem test_halt :
    view (fun t => (t.ctl, regs t)) (step { running 0xFFFF#16 [] with flag := true, cycle := 77 }) =
      some (.halted, 0xFFFF, true, 77) := by decide
/-- E1d, E1e. -/
theorem test_decay_boundary :
    debugByte { State.entry (State.put State.reset 0x0100#16 [0xA5]) 0x0100#16 129 (.bit 0) with cycle := 128 } 0x0100#16 = 0xA5 ∧
    debugByte { State.entry (State.put State.reset 0x0100#16 [0xA5]) 0x0100#16 129 (.bit 0) with cycle := 129 } 0x0100#16 = 0xA4 := by
  decide
/-- VI5: input through a redirected destination; the source is not read. -/
theorem test_input_redirected :
    view (fun t => (regs t, physAt t 0xFFFF, physAt t 0x100))
      (step { State.put (running 0x0000#16 [0xC1, 0x00, 0x01, 0x02, 0x01]) 0x0100#16 [0x55, 0x00, 0xFD, 0xFF] with
        input := [0x7E] }) = some ((0x0005, true, 1), 0x7E, 0x55) := by decide
/-- VI4: a trigger as source is a plain byte. -/
theorem test_trigger_as_source :
    view (fun t => (regs t, physAt t 0x100, t.inHist))
      (step { State.put (State.put (running 0x0000#16 [0xC0, 0xFD, 0xFF, 0x00, 0x01]) 0x0100#16 [0xFF]) 0xFFFD#16 [0x0F] with
        input := [0x7E] }) = some ((0x0005, true, 8), 0xF0, []) := by decide
/-- VI6: the output is the logical byte, and the read collapses the entry. -/
theorem test_output_of_a_due_cell :
    view (fun t => (t.outHist, physAt t 0xFFFF, entryAt t 0xFFFF))
      (step (State.entry (State.put (running 0x0000#16 [0xE0, 0xFE, 0xFF]) 0xFFFF#16 [0x41]) 0xFFFF#16 0 (.bit 0))) =
      some ([0x40], 0x40, none) := by decide
/-- VW16: with `WIDE_SEL` 0 the byte 0xC0 selects the single-bit form. -/
theorem test_wideSel_zero :
    decodeWith false [0xC0#8, 0x00#8, 0x01#8, 0x01#8, 0x01#8] =
      .ok (.nandbit 0#3 false false 0x0100#16 0x0101#16, []) ∧
    nandResult (.bit 0) 0x0F 0x3C = 0x3D := by decide
/-- The debug port shows the logical value, IP, FLAG, CYCLE and STATE (20_memory R87), here of a due cell not yet collapsed. -/
theorem test_debugView :
    debugView { State.entry (State.put (running 0x0200#16 []) 0x0100#16 [0xA5]) 0x0100#16 129 (.bit 0) with
      flag := true, cycle := 129 } 0x0100#16 = ⟨0xA4, 0x0200, true, 129, 0⟩ := by decide
/-- A host's own numbers, reported for each of the three statuses (60_exceptions R236). -/
theorem test_exitCode :
    (Config.ExitCodes.mk 0 1 2).distinct = true ∧ (Config.ExitCodes.mk 0 1 1).distinct = false ∧
    [ExitStatus.success, .fetchError 0xFFFF#16, .noBinary].map (exitCode ⟨0, 1, 2⟩) = [0, 1, 2] := by decide
/-- D11: overflow is refused by name. -/
theorem test_overflow_is_refused :
    refusalOf (step { running 0x0000#16 [0x00, 0x00, 0x00] with cycle := BitVec.allOnes 64 }) = some .cycleOverflow := by
  decide
/-- The host's placing of an instruction is what the next step runs. -/
theorem test_withFetchWord :
    view (fun t => (regs t, physAt t 0x0201)) (step (State.reset.withFetchWord 40 0x02010100C2)) =
      some ((0x0005, true, 8), 0xFF) := by decide

/-! ### Witnesses: for every obligation with hypotheses, a state and operands that meet them together -/

/-- VW3's start: NANDW 0x100, 0x101 at address 0. -/
def nandwAt0 : State := State.put (running 0x0000#16 [0xC0, 0x00, 0x01, 0x01, 0x01]) 0x0100#16 [0x0F, 0x3C]
/-- VI1's start: the read-trigger at address 0, one byte waiting. -/
def inputAt0 : State := { running 0x0000#16 [0xE0, 0xFD, 0xFF] with input := [0x41] }
/-- VI2's start: the write-trigger at address 0. -/
def outputAt0 : State := State.put (running 0x0000#16 [0xE0, 0xFE, 0xFF]) 0xFFFF#16 [0x41]
/-- A cell that reads 0xA5 and then 0x00 from cycle 136 on (E1a). -/
def byteEntry : State := State.entry (State.put State.reset 0x0100#16 [0xA5]) 0x0100#16 136 .byte
/-- A cell whose bit 0 is due at cycle 129 (E1d). -/
def bitEntry : State := State.entry (State.put State.reset 0x0100#16 [0xA5]) 0x0100#16 129 (.bit 0)
/-- 136 cycles are left, the fewest that let a whole-byte NAND complete. -/
def lastCycle : Cycle := BitVec.ofNat 64 (2 ^ 64 - 137)

theorem view_some {o : Host.Outcome State Fault Refusal} {t : State} (h : view id o = some t) : o = .next t := by
  cases o with
  | next u => exact congrArg _ (Option.some.inj h)
  | fault r => cases h
  | refused r => cases h

theorem view_isSome {o : Host.Outcome State Fault Refusal} (h : (view id o).isSome = true) : ∃ t, o = .next t := by
  obtain ⟨t, ht⟩ := Option.isSome_iff_exists.mp h
  exact ⟨t, view_some ht⟩

/-- What is seen of a next state is seen of a state that the step answers. -/
theorem view_next {α : Type} {f : State → α} {o : Host.Outcome State Fault Refusal} {v : α} (h : view f o = some v) :
    ∃ t, o = .next t ∧ f t = v := by
  cases o with
  | next u => exact ⟨u, rfl, Option.some.inj h⟩
  | fault r => cases h
  | refused r => cases h

theorem refusalOf_some {o : Host.Outcome State Fault Refusal} {r : Refusal} (h : refusalOf o = some r) : o = .refused r := by
  cases o with
  | next u => cases h
  | fault r => cases h
  | refused q => exact congrArg _ (Option.some.inj h)

theorem witness_LoadBuildsTheResetStateFromTheImage :
    (List.replicate 65536 (0xFF : Byte)).length ≤ Config.params.maxImage ∧
    ¬ (List.replicate 65537 (0xFF : Byte)).length ≤ Config.params.maxImage := by
  rw [List.length_replicate, List.length_replicate]; decide

theorem witness_LoadMeetsTheEngineInvariant : ∃ s, loadImage [0xFF, 0xFF] = some s := ⟨_, rfl⟩

theorem witness_EveryStepKeepsTheEngineInvariant : engineInv nandwAt0 = true ∧ ∃ t, step nandwAt0 = .next t :=
  ⟨by decide, view_isSome (by decide)⟩

/-- Not the whole invariant: this deadline lies further ahead than any instruction can set it. -/
theorem witness_DecayTableNeverExceedsItsCapacity : tablesCanonical byteEntry = true ∧ engineInv byteEntry = false := by decide

theorem witness_TriggerCellsKeepTheirLoadValues :
    engineInv nandwAt0 = true ∧ (∃ t, Sys2Proof.core.run 1 nandwAt0 = .next t) ∧ isTrigger 0xFFFD#16 ∧ isTrigger 0xFFFE#16 := by
  obtain ⟨t, ht⟩ := witness_EveryStepKeepsTheEngineInvariant.2
  exact ⟨by decide, ⟨t, run_next 0 ht⟩, Or.inl rfl, Or.inr rfl⟩

theorem witness_EncodeOfDecodeIsTheBytes :
    decodeWith true [0xFF, 0x00, 0x01, 0x02] = .ok (.nandwS 7#3 true true 0x0100#16, [0x02]) ∧
    decodeWith false [0x3F, 0x00, 0x01] = .ok (.br 0x3F#6 0x0100#16, []) := by decide

theorem witness_TopBitSelectsTheClass :
    decodeWith true (0x7F :: [0x00, 0x01]) = .ok (.brR 0x3F#6 0x0100#16, []) ∧
    decodeWith false (0x80 :: [0x00, 0x01, 0x02, 0x03]) = .ok (.nandw 0#3 false false 0x0100#16 0x0302#16, []) := by decide

/-- Each clause, at the deadline and one cycle before it. -/
theorem witness_LogicalValueAppliesDueDecay :
    entryAt byteEntry 0x0101#16 = none ∧
    (entryAt byteEntry 0x0100#16 = some ⟨136, .byte⟩ ∧ (135 : Cycle).toNat < (136 : Cycle).toNat) ∧
    (entryAt byteEntry 0x0100#16 = some ⟨136, .byte⟩ ∧ (136 : Cycle).toNat ≤ (136 : Cycle).toNat) ∧
    (entryAt bitEntry 0x0100#16 = some ⟨129, .bit 0⟩ ∧ (129 : Cycle).toNat ≤ (129 : Cycle).toNat) := by decide

theorem witness_LogicalReadCollapsesDueEntries :
    (entryAt { byteEntry with cycle := 136 } 0x0100#16 = some ⟨136, .byte⟩ ∧ (136 : Cycle) ≤ 136) ∧
    (∀ e, entryAt { byteEntry with cycle := 135 } 0x0100#16 = some e → (135 : Cycle) < e.deadline) ∧
    (0x0101#16 ≠ 0x0100#16) := by
  refine ⟨by decide, fun e h => ?_, by decide⟩
  have h' : entryAt { byteEntry with cycle := 135 } 0x0100#16 = some ⟨136, .byte⟩ := by decide
  rw [h'] at h
  cases h
  decide

theorem witness_OrderOfReadsIsNotObservable : tablesCanonical { byteEntry with cycle := 136 } = true := by decide

theorem witness_RawWriteLeavesTheDecayEntry : 0x0101#16 ≠ 0x0100#16 ∧ tablesCanonical byteEntry = true := by decide

theorem witness_OnlyTheNandProperSchedulesDecay :
    ∃ t, step nandwAt0 = .next t ∧ entryAt t 0x0101#16 = some ⟨136, .byte⟩ ∧
      entryAt nandwAt0 0x0101#16 ≠ some ⟨136, .byte⟩ := by
  obtain ⟨t, ht, h⟩ := view_next (f := fun t => entryAt t 0x0101#16) (o := step nandwAt0) (v := some ⟨136, .byte⟩) (by decide)
  exact ⟨t, ht, h, by decide⟩

/-- One witness for each of the three things: a collapse, a NAND proper, an input. -/
theorem witness_ExactlyThreeThingsWritePhysicalMemory :
    (∃ t, step (State.entry outputAt0 0xFFFF#16 0 (.bit 0)) = .next t ∧
      physAt t 0xFFFF#16 ≠ physAt (State.entry outputAt0 0xFFFF#16 0 (.bit 0)) 0xFFFF#16) ∧
    (∃ t, step nandwAt0 = .next t ∧ physAt t 0x0101#16 ≠ physAt nandwAt0 0x0101#16) ∧
    (∃ t, step inputAt0 = .next t ∧ physAt t 0xFFFF#16 ≠ physAt inputAt0 0xFFFF#16) := by
  refine ⟨?_, ?_, ?_⟩
  · obtain ⟨t, ht, h⟩ := view_next (f := fun t => physAt t 0xFFFF#16)
      (o := step (State.entry outputAt0 0xFFFF#16 0 (.bit 0))) (v := 0x40) (by decide)
    exact ⟨t, ht, by rw [h]; decide⟩
  · obtain ⟨t, ht, h⟩ := view_next (f := fun t => physAt t 0x0101#16) (o := step nandwAt0) (v := 0xF3) (by decide)
    exact ⟨t, ht, by rw [h]; decide⟩
  · obtain ⟨t, ht, h⟩ := view_next (f := fun t => physAt t 0xFFFF#16) (o := step inputAt0) (v := 0x41) (by decide)
    exact ⟨t, ht, by rw [h]; decide⟩

/-- The last address at which five bytes fit, the last cycle count, a destination beside the triggers. -/
theorem witness_WholeByteWriteDecaysAfterItsPeriod :
    fits { nandwAt0 with ip := 0xFFFA, cycle := lastCycle } 5 ∧
    cyclesLeft { nandwAt0 with ip := 0xFFFA, cycle := lastCycle } (Config.params.costNandByte + Config.params.decayPeriod) ∧
    ¬ isTrigger (operandsTwo { nandwAt0 with ip := 0xFFFA, cycle := lastCycle } false false 0x0100#16 0xFFFC#16).dst := by
  refine ⟨by unfold fits; decide, by unfold cyclesLeft; decide, by unfold isTrigger; decide⟩

theorem witness_SingleBitWriteDecaysThatBitOnly :
    fits { nandwAt0 with ip := 0xFFFA, cycle := lastCycle } 5 ∧
    cyclesLeft { nandwAt0 with ip := 0xFFFA, cycle := lastCycle } (Config.params.costNandBit + Config.params.decayPeriod) ∧
    ¬ isTrigger (operandsTwo { nandwAt0 with ip := 0xFFFA, cycle := lastCycle } true true 0x0100#16 0x0100#16).dst := by
  refine ⟨by unfold fits; decide, by unfold cyclesLeft; decide, by unfold isTrigger; decide⟩

/-- Input onto an entry of the I/O cell that is due at this very cycle (P8 in one state). -/
def inputOntoDue : State := { State.entry inputAt0 0xFFFF#16 136 .byte with cycle := 136 }
/-- NANDBIT with its destination redirected to the read-trigger, one cycle before the entry of the I/O cell is due. -/
def inputBeforeDue : State :=
  { State.entry (State.put (running 0x0000#16 [0x85, 0x00, 0x01, 0x00, 0x02]) 0x0200#16 [0xFD, 0xFF]) 0xFFFF#16 136 (.bit 0) with
    cycle := 135, input := [0x41] }
/-- NANDW.S through a pointer at 0xFFFF, the I/O cell itself, whose due bit 1 makes 0xFFFF read as 0xFFFD. -/
def inputThroughIoCell : State :=
  { State.entry (State.put (State.put (running 0x0010#16 [0xE2, 0xFF, 0xFF]) 0x0000#16 [0xFF]) 0xFFFF#16 [0xFF])
      0xFFFF#16 0 (.bit 1) with input := [0x41] }

theorem executes_inputOntoDue : Executes (.nandwS 0#3 false false 0xFFFD#16) inputOntoDue :=
  ⟨by decide, by decide, by decide, by decide, by decide⟩
theorem executes_inputBeforeDue : Executes (.nandbit 1#3 false true 0x0100#16 0x0200#16) inputBeforeDue :=
  ⟨by decide, by decide, by decide, by decide, by decide⟩
theorem executes_inputThroughIoCell : Executes (.nandwS 0#3 true false 0xFFFF#16) inputThroughIoCell :=
  ⟨by decide, by decide, by decide, by decide, by decide⟩

/-- R66 and R257: the entry stays, and the byte reads decayed at once. -/
theorem test_input_onto_a_due_entry :
    view (fun t => (physAt t 0xFFFF, entryAt t 0xFFFF, debugByte t 0xFFFF)) (step inputOntoDue) =
      some (0x41, some ⟨136, .byte⟩, 0x00) := by decide
/-- R61 and R66: the redirection's read has removed the entry before the byte came. -/
theorem test_input_after_a_read_of_the_due_entry :
    view (fun t => (physAt t 0xFFFF, entryAt t 0xFFFF, debugByte t 0xFFFF)) (step inputThroughIoCell) =
      some (0x41, none, 0x41) := by decide

/-- The first clause at the deadline and one cycle before it, and the second clause. -/
theorem witness_InputOntoADueEntryReadsDecayed :
    (destination (.nandwS 0#3 false false 0xFFFD#16) inputOntoDue = some Config.params.inTrig ∧
      cyclesLeft inputOntoDue Config.params.costIo ∧ inputOntoDue.input = 0x41 :: [] ∧
      entryAt inputOntoDue Config.params.ioCell = some ⟨136, .byte⟩ ∧
      Config.params.ioCell ∉ operandCells (.nandwS 0#3 false false 0xFFFD#16) ∧ (136 : Cycle) ≤ inputOntoDue.cycle) ∧
    (destination (.nandbit 1#3 false true 0x0100#16 0x0200#16) inputBeforeDue = some Config.params.inTrig ∧
      entryAt inputBeforeDue Config.params.ioCell = some ⟨136, .bit 0⟩ ∧ inputBeforeDue.cycle < 136) ∧
    (destination (.nandwS 0#3 true false 0xFFFF#16) inputThroughIoCell = some Config.params.inTrig ∧
      entryAt inputThroughIoCell Config.params.ioCell = some ⟨0, .bit 1⟩ ∧
      Config.params.ioCell ∈ operandCells (.nandwS 0#3 true false 0xFFFF#16) ∧ (0 : Cycle) ≤ inputThroughIoCell.cycle) :=
  ⟨by decide, by decide, by decide⟩

theorem witness_FetchByteReadsOrFaults :
    (0xFFFF#16 = Config.params.fetchLimit) ∧ (0xFFFE#16 ≠ Config.params.fetchLimit) := by decide

theorem witness_FetchAddrIsLittleEndian :
    (0xFFFD#16).toNat + 2 ≤ Config.params.fetchLimit.toNat ∧ 0xFFFE#16 + 1#16 = Config.params.fetchLimit ∧
    0xFFFF#16 = Config.params.fetchLimit := by decide

/-- The last address at which a BR fits; and both values of `waits`. -/
theorem witness_StepRunsTheDecodedInstruction :
    ((running 0xFFFC#16 [0x00]).ctl = .running ∧ (running 0xFFFC#16 [0x00]).ip ≠ Config.params.haltAddr ∧
      fits (running 0xFFFC#16 [0x00]) (instrLength (logicalValue (running 0xFFFC#16 [0x00]) 0xFFFC#16)) ∧
      waits (.br 0#6 0#16) (running 0xFFFC#16 [0x00]) = false) ∧
    waits (.nandwS 0#3 false false 0xFFFD#16) { inputAt0 with input := [] } = true := by
  refine ⟨⟨by decide, by decide, by unfold fits; decide, by decide⟩, by decide⟩

theorem witness_HaltSentinelHaltsAndNothingElse :
    (running 0xFFFF#16 []).ctl = .running ∧ (running 0xFFFF#16 []).ip = Config.params.haltAddr := by decide

theorem witness_TerminalStatesAreFinal :
    (enterHalted State.reset).ctl ≠ .running ∧ (raiseFetchError State.reset 0xFFFF#16).ctl ≠ .running := by decide

/-- Both sides of the equivalence: VF3 fits, VF4 does not. -/
theorem witness_FetchErrorExactlyWhenTheInstructionDoesNotFit :
    ((running 0xFFFC#16 [0x00]).ctl = .running ∧ (running 0xFFFC#16 [0x00]).ip ≠ Config.params.haltAddr ∧
      fits (running 0xFFFC#16 [0x00]) 3) ∧
    ((running 0xFFFD#16 [0x00]).ctl = .running ∧ (running 0xFFFD#16 [0x00]).ip ≠ Config.params.haltAddr ∧
      ¬ fits (running 0xFFFD#16 [0x00]) 3) := by
  unfold fits; decide

theorem witness_FetchErrorEntersFatalAndKeepsTheRest :
    (running 0xFFFB#16 [0xC0]).ctl = .running ∧ (running 0xFFFB#16 [0xC0]).ip ≠ Config.params.haltAddr ∧
    ¬ fits (running 0xFFFB#16 [0xC0]) (instrLength (logicalValue (running 0xFFFB#16 [0xC0]) 0xFFFB#16)) := by
  unfold fits; decide

theorem witness_MeaningsRaiseTheFetchErrorWhereTheyDoNotFit :
    ¬ fits (running 0xFFFB#16 []) (Instr.nandw 0#3 false false 0#16 0#16).length ∧
    ¬ fits (running 0xFFFD#16 []) (Instr.br 0#6 0#16).length := by unfold fits; decide

theorem witness_EveryStepIsDefinedWhileCyclesAreLeft :
    cyclesLeft { nandwAt0 with cycle := lastCycle } (Config.params.costNandByte + Config.params.decayPeriod) := by
  unfold cyclesLeft; decide

/-- Both refusals: no cycle left for a BR; the cost of a NANDW fits and its deadline does not. -/
theorem witness_ExactlyCounterOverflowIsRefused :
    step { State.reset with cycle := BitVec.allOnes 64 } = .refused .cycleOverflow ∧
    step { nandwAt0 with cycle := lastCycle + 1#64 } = .refused .deadlineOverflow ∧
    (Executes (.br 0#6 0#16) { State.reset with cycle := BitVec.allOnes 64 } ∧
      ¬ cyclesLeft { State.reset with cycle := BitVec.allOnes 64 } (cycleCost (.br 0#6 0#16) State.reset)) ∧
    (Executes (.nandw 0#3 false false 0x0100#16 0x0101#16) { nandwAt0 with cycle := lastCycle + 1#64 } ∧
      destination (.nandw 0#3 false false 0x0100#16 0x0101#16) { nandwAt0 with cycle := lastCycle + 1#64 } = some 0x0101#16 ∧
      ¬ isTrigger 0x0101#16 ∧ cyclesLeft { nandwAt0 with cycle := lastCycle + 1#64 } Config.params.costNandByte ∧
      ¬ cyclesLeft { nandwAt0 with cycle := lastCycle + 1#64 } (Config.params.costNandByte + Config.params.decayPeriod)) :=
  ⟨refusalOf_some (by decide), refusalOf_some (by decide),
    ⟨⟨by decide, by decide, by decide, by decide, by decide⟩, by decide⟩,
    ⟨⟨by decide, by decide, by decide, by decide, by decide⟩, by decide, by unfold isTrigger; decide, by decide, by decide⟩⟩

theorem witness_CycleGrowsByTheCostOfTheInstruction :
    (∃ t, step nandwAt0 = .next t) ∧ (∃ t, step inputAt0 = .next t) ∧ (∃ t, step (running 0xFFFD#16 [0x00]) = .next t) :=
  ⟨view_isSome (by decide), view_isSome (by decide), view_isSome (by decide)⟩

/-- A NAND proper that sets FLAG, one that clears it, and each trigger. -/
theorem witness_OnlyNandsWriteTheFlag :
    (∃ t, step nandwAt0 = .next t ∧ t.flag ≠ nandwAt0.flag) ∧
    (∃ t, step { State.put nandwAt0 0x0100#16 [0xFF, 0xFF] with flag := true } = .next t ∧ t.flag ≠ true) ∧
    (∃ t, step outputAt0 = .next t) ∧ (∃ t, step inputAt0 = .next t) ∧
    (Executes (.nandwS 0#3 false false 0xFFFE#16) outputAt0 ∧
      destination (.nandwS 0#3 false false 0xFFFE#16) outputAt0 = some 0xFFFE#16 ∧ isTrigger 0xFFFE#16) ∧
    (Executes (.nandwS 0#3 false false 0xFFFD#16) inputAt0 ∧
      destination (.nandwS 0#3 false false 0xFFFD#16) inputAt0 = some 0xFFFD#16 ∧ isTrigger 0xFFFD#16) := by
  refine ⟨?_, ?_, view_isSome (by decide), view_isSome (by decide),
    ⟨⟨by decide, by decide, by decide, by decide, by decide⟩, by decide, Or.inr rfl⟩,
    ⟨⟨by decide, by decide, by decide, by decide, by decide⟩, by decide, Or.inl rfl⟩⟩
  · obtain ⟨t, ht, h⟩ := view_next (f := State.flag) (o := step nandwAt0) (v := true) (by decide)
    exact ⟨t, ht, by rw [h]; decide⟩
  · obtain ⟨t, ht, h⟩ := view_next (f := State.flag)
      (o := step { State.put nandwAt0 0x0100#16 [0xFF, 0xFF] with flag := true }) (v := false) (by decide)
    exact ⟨t, ht, by rw [h]; decide⟩

/-- No access, an input, an output. -/
theorem witness_EachStepMakesAtMostOneIoAccess :
    (∃ t, step nandwAt0 = .next t) ∧ (∃ t, step inputAt0 = .next t ∧ t.inHist = [0x41]) ∧
    (∃ t, step outputAt0 = .next t ∧ t.outHist = [0x41]) :=
  ⟨view_isSome (by decide), view_next (by decide), view_next (by decide)⟩

/-- Two different states: one has collapsed the due entry, the other has not. -/
theorem witness_StepsRespectLogicalEquality :
    logicallyEqual { byteEntry with cycle := 136 } (collapse { byteEntry with cycle := 136 } 0x0100#16) ∧
    collapse { byteEntry with cycle := 136 } 0x0100#16 ≠ { byteEntry with cycle := 136 } ∧
    (∀ i, decode (instrBytes { byteEntry with cycle := 136 }) = .ok (i, []) →
      destination i { byteEntry with cycle := 136 } ≠ some Config.params.inTrig) ∧
    (∃ t, step { byteEntry with cycle := 136 } = .next t) := by
  have h := onlyReads_collapse { byteEntry with cycle := 136 } 0x0100#16
  refine ⟨⟨h.flag, h.cycle, h.ip, h.status, h.channels, fun a => readsAsBefore_of_cellKept (h.cells a)⟩, by decide, ?_,
    view_isSome (by decide)⟩
  intro i hi
  have hd : decode (instrBytes { byteEntry with cycle := 136 }) = .ok (.br 0#6 0#16, []) := by decide
  rw [hd] at hi
  cases hi
  decide

/-- Each clause: a terminal state, the halt sentinel, a hold, an instruction that does not fit, and one that completes while a due
entry that it does not read stays. -/
theorem witness_EveryStepReadsExactlyTheCellsOfItsInstruction :
    (∃ t, step (enterHalted State.reset) = .next t) ∧ (∃ t, step (running 0xFFFF#16 []) = .next t) ∧
    ((∃ t, step { inputAt0 with input := [] } = .next t) ∧
      decode (instrBytes { inputAt0 with input := [] }) = .ok (.nandwS 0#3 false false 0xFFFD#16, []) ∧
      fits { inputAt0 with input := [] } 3 ∧ waits (.nandwS 0#3 false false 0xFFFD#16) { inputAt0 with input := [] } = true) ∧
    ((∃ t, step (running 0xFFFD#16 [0x00]) = .next t) ∧ ¬ fits (running 0xFFFD#16 [0x00]) 3) ∧
    ((∃ t, step (State.entry nandwAt0 0xFFFF#16 0 .byte) = .next t) ∧
      waits (.nandw 0#3 false false 0x0100#16 0x0101#16) (State.entry nandwAt0 0xFFFF#16 0 .byte) = false ∧
      writtenCell (.nandw 0#3 false false 0x0100#16 0x0101#16) (State.entry nandwAt0 0xFFFF#16 0 .byte) = some 0x0101#16 ∧
      0xFFFF#16 ∉ stepCells (.nandw 0#3 false false 0x0100#16 0x0101#16) (State.entry nandwAt0 0xFFFF#16 0 .byte)) :=
  ⟨view_isSome (by decide), view_isSome (by decide), ⟨view_isSome (by decide), by decide, by decide, by decide⟩,
    ⟨view_isSome (by decide), by decide⟩, ⟨view_isSome (by decide), by decide, by decide, by decide⟩⟩

theorem witness_BrJumpsToItsTargetIfTheFlagIsSet :
    fits (running 0xFFFC#16 []) 3 ∧
    cyclesLeft { running 0xFFFC#16 [] with cycle := BitVec.ofNat 64 (2 ^ 64 - 2) } Config.params.costBr := by
  unfold fits cyclesLeft; decide

theorem witness_BrRJumpsThroughThePointerIfTheFlagIsSet :
    fits (running 0xFFFC#16 [0x40]) 3 ∧ cyclesLeft (running 0xFFFC#16 [0x40]) Config.params.costBr := by
  unfold fits cyclesLeft; decide

/-- Both boundary addresses of the fetch error, and the last address at which the instruction completes. -/
theorem witness_StepAtABrOpcodeFollowsItsRule : (∀ a ∈ [0xFFFD#16, 0xFFFE#16, 0xFFFC#16],
      (running a [0x3F]).ctl = .running ∧ (running a [0x3F]).ip ≠ Config.params.haltAddr ∧
      (logicalValue (running a [0x3F]) a)[7] = false ∧ (logicalValue (running a [0x3F]) a)[6] = false ∧
      cyclesLeft (running a [0x3F]) Config.params.costBr) ∧
    0xFFFD#16 + 2#16 = Config.params.fetchLimit ∧ 0xFFFE#16 + 1#16 = Config.params.fetchLimit ∧
    0xFFFC#16 + 1#16 ≠ Config.params.fetchLimit ∧ 0xFFFC#16 + 2#16 ≠ Config.params.fetchLimit := by
  simp only [List.forall_mem_cons, List.not_mem_nil]
  exact ⟨⟨by decide, by decide, by decide, fun _ h => h.elim⟩, by decide⟩

theorem witness_StepAtABrROpcodeFollowsItsRule : ∀ a ∈ [0xFFFD#16, 0xFFFE#16, 0xFFFC#16],
    (running a [0x40]).ctl = .running ∧ (running a [0x40]).ip ≠ Config.params.haltAddr ∧
    (logicalValue (running a [0x40]) a)[7] = false ∧ (logicalValue (running a [0x40]) a)[6] = true ∧
    0x0000#16 = addrOfBytes (logicalValue (running a [0x40]) (a + 1#16)) (logicalValue (running a [0x40]) (a + 2#16)) ∧
    cyclesLeft (running a [0x40]) Config.params.costBr := by
  simp only [List.forall_mem_cons, List.not_mem_nil]
  refine ⟨by decide, by decide, by decide, fun _ h => h.elim⟩

/-- The I/O cell is no trigger, and neither is the cell below the triggers. -/
theorem witness_NandwWritesTheWholeByteNand : ∀ d ∈ [0xFFFF#16, 0xFFFC#16, 0x0000#16],
    fits { nandwAt0 with ip := 0xFFFA, cycle := lastCycle } 5 ∧
    cyclesLeft { nandwAt0 with ip := 0xFFFA, cycle := lastCycle } (Config.params.costNandByte + Config.params.decayPeriod) ∧
    ¬ isTrigger (operandsTwo { nandwAt0 with ip := 0xFFFA, cycle := lastCycle } false false 0xFFFD#16 d).dst := by
  simp only [List.forall_mem_cons, List.not_mem_nil]
  unfold fits cyclesLeft isTrigger
  refine ⟨by decide, by decide, by decide, fun _ h => h.elim⟩

theorem witness_NandwSComplementsItsOneOperand :
    fits { nandwAt0 with ip := 0xFFFC, cycle := lastCycle } 3 ∧
    cyclesLeft { nandwAt0 with ip := 0xFFFC, cycle := lastCycle } (Config.params.costNandByte + Config.params.decayPeriod) ∧
    ¬ isTrigger (operandsOne { nandwAt0 with ip := 0xFFFC, cycle := lastCycle } true 0x0100#16).dst := by
  exact ⟨by unfold fits; decide, by unfold cyclesLeft; decide, by unfold isTrigger; decide⟩

theorem witness_NandbitWritesTheSelectedBit :
    fits { nandwAt0 with ip := 0xFFFA, cycle := lastCycle } 5 ∧
    cyclesLeft { nandwAt0 with ip := 0xFFFA, cycle := lastCycle } (Config.params.costNandBit + Config.params.decayPeriod) ∧
    ¬ isTrigger (operandsTwo { nandwAt0 with ip := 0xFFFA, cycle := lastCycle } false true 0xFFFE#16 0x0100#16).dst := by
  exact ⟨by unfold fits; decide, by unfold cyclesLeft; decide, by unfold isTrigger; decide⟩

theorem witness_NandbitSInvertsTheSelectedBit :
    fits { nandwAt0 with ip := 0xFFFC, cycle := lastCycle } 3 ∧
    cyclesLeft { nandwAt0 with ip := 0xFFFC, cycle := lastCycle } (Config.params.costNandBit + Config.params.decayPeriod) ∧
    ¬ isTrigger (operandsOne { nandwAt0 with ip := 0xFFFC, cycle := lastCycle } false 0xFFFF#16).dst := by
  exact ⟨by unfold fits; decide, by unfold cyclesLeft; decide, by unfold isTrigger; decide⟩

theorem witness_NandOfACellWithItselfIsTheSingleOperandForm :
    fits nandwAt0 5 ∧ ¬ isTrigger 0x0100#16 ∧
    (∃ t, exec (.nandw 0#3 false false 0x0100#16 0x0100#16) nandwAt0 = .next t) ∧
    (∃ t, exec (.nandbit 7#3 false false 0x0100#16 0x0100#16) nandwAt0 = .next t) :=
  ⟨by unfold fits; decide, by unfold isTrigger; decide, view_isSome (by decide), view_isSome (by decide)⟩

/-- Each of the four NANDs at the read-trigger, one of them through a pointer (VI5). -/
theorem witness_ReadTriggerInputsOneByte :
    (∀ i ∈ [Instr.nandw 0#3 false false 0x0100#16 0xFFFD#16, .nandwS 0#3 false false 0xFFFD#16,
        .nandbit 3#3 false true 0x0100#16 0x0200#16, .nandbitS 5#3 true false 0x0200#16],
      destination i (State.put inputAt0 0x0200#16 [0xFD, 0xFF]) = some Config.params.inTrig ∧
      fits (State.put inputAt0 0x0200#16 [0xFD, 0xFF]) i.length) ∧
    cyclesLeft (State.put inputAt0 0x0200#16 [0xFD, 0xFF]) Config.params.costIo ∧
    (State.put inputAt0 0x0200#16 [0xFD, 0xFF]).input = 0x41 :: [] := by
  unfold fits cyclesLeft; decide

/-- Each of the four NANDs at the write-trigger. -/
theorem witness_WriteTriggerOutputsTheIoCell :
    (∀ i ∈ [Instr.nandw 0#3 false true 0x0100#16 0x0200#16, .nandwS 0#3 true false 0x0200#16,
        .nandbit 3#3 false false 0x0100#16 0xFFFE#16, .nandbitS 5#3 false false 0xFFFE#16],
      destination i (State.put outputAt0 0x0200#16 [0xFE, 0xFF]) = some Config.params.outTrig ∧
      fits (State.put outputAt0 0x0200#16 [0xFE, 0xFF]) i.length) ∧
    cyclesLeft (State.put outputAt0 0x0200#16 [0xFE, 0xFF]) Config.params.costIo ∧
    (State.put outputAt0 0x0200#16 [0xFE, 0xFF]).outReady = true := by
  unfold fits cyclesLeft; decide

/-- The value of `EOF_MODE` is one of the two the clauses speak of. -/
theorem witness_ReadTriggerAtEndOfStreamFollowsEofMode :
    (destination (.nandwS 0#3 false false 0xFFFD#16) { inputAt0 with input := [], inputEnd := true } =
        some Config.params.inTrig ∧
      fits { inputAt0 with input := [], inputEnd := true } 3 ∧
      cyclesLeft { inputAt0 with input := [], inputEnd := true } Config.params.costIo) ∧
    (Config.eofMode = .hold ∨ ∃ v, Config.eofMode = .byte v) := by
  refine ⟨by unfold fits cyclesLeft; decide, ?_⟩
  cases Config.eofMode with
  | hold => exact Or.inl rfl
  | byte v => exact Or.inr ⟨v, rfl⟩

/-- Both channels. -/
theorem witness_HoldingOnAChannelLeavesTheState :
    (∀ s ∈ [{ inputAt0 with input := [] }, { outputAt0 with outReady := false }],
      s.ctl = .running ∧ s.ip ≠ Config.params.haltAddr ∧ fits s (instrLength (logicalValue s s.ip))) ∧
    (decode (instrBytes { inputAt0 with input := [] }) = .ok (.nandwS 0#3 false false 0xFFFD#16, []) ∧
      destination (.nandwS 0#3 false false 0xFFFD#16) { inputAt0 with input := [] } = some Config.params.inTrig ∧
      inputAt0.inputEnd = false) ∧
    (decode (instrBytes { outputAt0 with outReady := false }) = .ok (.nandwS 0#3 false false 0xFFFE#16, []) ∧
      destination (.nandwS 0#3 false false 0xFFFE#16) { outputAt0 with outReady := false } = some Config.params.outTrig) := by
  unfold fits; decide

theorem witness_ASuppliedByteLiftsTheHold :
    ({ inputAt0 with input := [] } : State).ctl = .running ∧
    ({ inputAt0 with input := [] } : State).ip ≠ Config.params.haltAddr ∧
    fits { inputAt0 with input := [] } (instrLength (logicalValue { inputAt0 with input := [] } 0x0000#16)) ∧
    decode (instrBytes { inputAt0 with input := [] }) = .ok (.nandwS 0#3 false false 0xFFFD#16, []) ∧
    destination (.nandwS 0#3 false false 0xFFFD#16) { inputAt0 with input := [] } = some Config.params.inTrig ∧
    ({ inputAt0 with input := [] } : State).inputEnd = false ∧
    cyclesLeft { inputAt0 with input := [] } Config.params.costIo := by
  unfold fits cyclesLeft; decide

end Sys2Proof.Tests
end

section
/-! PROOFS. The family of 20_memory: the logical value (R60), the logical read (R61) and the scheduling of decay (R65). -/

namespace Sys2Proof.Machine

/-! ### The logical value, by the entry of its cell (20_memory R60) -/

theorem logicalAt_of_none {s : State} {a : Addr} (c : Cycle) (h : entryAt s a = none) :
    logicalAt s c a = physAt s a := by
  simp [logicalAt, h]

theorem logicalAt_of_not_due {s : State} {a : Addr} {c : Cycle} {e : DecayEntry} (h : entryAt s a = some e)
    (hd : isDue e c = false) : logicalAt s c a = physAt s a := by
  simp [logicalAt, h, hd]

theorem logicalAt_of_due {s : State} {a : Addr} {c : Cycle} {e : DecayEntry} (h : entryAt s a = some e)
    (hd : isDue e c = true) : logicalAt s c a = decayed e (physAt s a) := by
  simp [logicalAt, h, hd]

/-- Before its deadline an entry is not due; `isDue_iff` is the other half. -/
theorem isDue_eq_false_iff (e : DecayEntry) (c : Cycle) : isDue e c = false ↔ c.toNat < e.deadline.toNat := by
  rw [← Bool.not_eq_true, isDue_iff, Nat.not_le]

theorem decayed_byte {e : DecayEntry} (h : e.gran = .byte) (v : Byte) : decayed e v = 0x00#8 := by
  simp [decayed, h]

/-- The mask of a `Bit(i)` entry clears bit `i` and keeps the other seven. -/
theorem getLsbD_decayed_bit {e : DecayEntry} {i : BitIndex} (h : e.gran = .bit i) (v : Byte) {j : Nat} (hj : j < 8) :
    (decayed e v).getLsbD j = if j = i.toNat then false else v.getLsbD j := by
  have hmask : (1#8 <<< i.toNat).getLsbD j = (decide (i.toNat < 8) && decide (i.toNat = j)) :=
    BitVec.getLsbD_twoPow i.toNat j
  simp only [decayed, h, BitVec.getLsbD_and, BitVec.getLsbD_not, hmask, hj]
  by_cases hji : j = i.toNat
  · simp [hji, hji ▸ hj]
  · simp [hji, Ne.symm hji]

/-! ### Where an entry can come from (20_memory R65) -/

/-- A cell that is kept gets no new entry: a collapse only removes one. -/
theorem entryAt_of_cellKept {s t : State} {a : Addr} {e : DecayEntry} (h : cellKept s t a)
    (he : entryAt t a = some e) : entryAt s a = some e := by
  rcases h with ⟨_, hsame⟩ | ⟨_, _, _, _, hnone⟩
  · exact hsame ▸ he
  · rw [hnone] at he; cases he

theorem entryAt_of_onlyReads {s t : State} (h : OnlyReads s t) {a : Addr} {e : DecayEntry}
    (he : entryAt t a = some e) : entryAt s a = some e :=
  entryAt_of_cellKept (h.cells a) he

theorem TookInput.entryAt_eq {s t : State} {b : Byte} (h : TookInput s b t) (a : Addr) :
    entryAt t a = entryAt s a := by
  unfold entryAt; rw [h.dt]

/-- An entry after a completed instruction was there before, or stands at the destination of a NAND proper: of the four ways to
complete, a branch and the two triggers only read and write bytes. -/
theorem Completed.entryAt_cases {cells : List Addr} {i : Instr} {s t : State} {a : Addr} {e : DecayEntry}
    (h : Completed cells i s t) (he : entryAt t a = some e) :
    entryAt s a = some e ∨ (destination i s = some a ∧ ¬ isTrigger a) := by
  have hr := onlyReads_readAll cells s
  rcases h with ⟨_, _, _, _, _, p, rfl⟩ | ⟨_, _, _, _, b, s1, hin, rfl⟩ | ⟨_, _, _, _, rfl⟩ |
    ⟨g, x, y, _, hdst, _, hnt, _, _, rfl⟩
  · exact .inl (entryAt_of_onlyReads hr he)
  · rw [entryAt_retire, entryAt_setFlag, entryAt_memWrite, (tookInput_of_takeInput hin).entryAt_eq] at he
    exact .inl (entryAt_of_onlyReads hr he)
  · exact .inl (entryAt_of_onlyReads (onlyReads_trans hr (onlyReads_collapse _ _)) he)
  · by_cases hay : a = y
    · exact .inr (hay ▸ ⟨hdst, hnt⟩)
    · exact .inl (entryAt_of_onlyReads hr (entryAt_of_cellKept (nandNext_cellKept g x y _ _ hay) he))

/-- The same of a step: one that completes no instruction at most reads. -/
theorem step_entryAt_cases {s t : State} {a : Addr} {e : DecayEntry} (h : step s = .next t)
    (he : entryAt t a = some e) :
    entryAt s a = some e ∨ (destination (instrAt s) s = some a ∧ ¬ isTrigger a) := by
  rcases step_completed h with ⟨_, rfl⟩ | ⟨_, _, rfl⟩ | ⟨_, _, _, rfl⟩ | ⟨_, _, _, ⟨_, rfl⟩ | ⟨_, hdone⟩⟩
  · exact .inl he
  · exact .inl he
  · exact .inl (entryAt_of_onlyReads (onlyReads_readAll _ s) he)
  · exact .inl he
  · exact hdone.entryAt_cases he

end Sys2Proof.Machine

open Sys2Proof Sys2Proof.Machine

/-- Settles O19: the first half by the update rules of `scheduleDecay`, the second by where a step's entries can come from
(`step_entryAt_cases`) for the instruction that the bytes at `IP` decode to. -/
theorem onlyTheNandProperSchedulesDecay : Obligations.OnlyTheNandProperSchedulesDecay := by
  refine ⟨fun s a b d g => ⟨?_, fun hb => ?_, physAt_scheduleDecay s a b d g⟩, fun s t a e h he hne => ?_⟩
  · rw [entryAt_scheduleDecay, if_pos rfl]
  · rw [entryAt_scheduleDecay, if_neg hb]
  · have hdst := (step_entryAt_cases h he).resolve_left hne
    exact ⟨instrAt s, decode_instrBytes s, hdst⟩

/-- Settles O15, by the three cases of the cell's entry: none, not yet due, due with its granularity. -/
theorem logicalValueAppliesDueDecay : Obligations.LogicalValueAppliesDueDecay := by
  intro s c a
  refine ⟨logicalAt_of_none c, fun e he hlt => ?_, fun e he hle hg => ?_, fun e i he hle hg j hj => ?_, rfl⟩
  · exact logicalAt_of_not_due he ((isDue_eq_false_iff e c).mpr hlt)
  · rw [logicalAt_of_due he ((isDue_iff e c).mpr hle), decayed_byte hg]
  · rw [logicalAt_of_due he ((isDue_iff e c).mpr hle), getLsbD_decayed_bit hg _ hj]

/-- Settles O16: a read is a `collapse`, which acts where the entry is due and is the identity where the cell is `settled`. -/
theorem logicalReadCollapsesDueEntries : Obligations.LogicalReadCollapsesDueEntries := by
  intro s a
  simp only [memRead_value, memRead_state]
  refine ⟨trivial, ?_, fun e he hle => ?_, fun hlt => ?_, fun b hb => ?_, onlyReads_collapse s a⟩
  · rw [physAt_collapse, if_pos rfl]
  · rw [collapse_of_due he (decide_eq_true hle)]
    simp
  · have hset : settled s a := fun e he => decide_eq_false (BitVec.not_le.mpr (hlt e he))
    exact collapse_of_settled hset
  · rw [physAt_collapse, entryAt_collapse, if_neg hb, if_neg hb]
    exact ⟨rfl, rfl⟩
end

section
/-! PROOFS. The family of 30_encoding: what a decoded instruction tells of its bytes (R100, R101, R108, R110). -/

namespace Sys2Proof

/-- The class of the opcode map's rows (30_encoding R101, R108). -/
theorem decodeOperands_isBranch (w : Bool) (op : Byte) (a b : Addr) :
    (decodeOperands w op a b).isBranch = true ↔ op[7] = false := by
  unfold decodeOperands
  by_cases hclass : op[7] = false
  · rw [if_pos hclass]
    split <;> simp [Instr.isBranch, hclass]
  · rw [if_neg hclass]
    split <;> split <;> simp [Instr.isBranch, hclass]

/-- Everything a successful decode can be: the short form with one address, or the long form with two, of the opcode map. -/
theorem decodeWith_cons_ok_cases {w : Bool} {op : Byte} {tail rest : List Byte} {i : Instr}
    (h : decodeWith w (op :: tail) = .ok (i, rest)) :
    (∃ lo hi, instrLength op = 3 ∧ tail = lo :: hi :: rest ∧
      i = decodeOperands w op (addrOfBytes lo hi) 0#16) ∨
    (∃ lo hi lo2 hi2, instrLength op ≠ 3 ∧ tail = lo :: hi :: lo2 :: hi2 :: rest ∧
      i = decodeOperands w op (addrOfBytes lo hi) (addrOfBytes lo2 hi2)) := by
  match tail with
  | [] | [_] => cases h
  | lo :: hi :: more =>
    unfold decodeWith at h
    dsimp only at h
    split at h
    next hshort =>
      cases h
      exact .inl ⟨lo, hi, hshort, rfl, rfl⟩
    next hlong =>
      match more with
      | [] | [_] => cases h
      | lo2 :: hi2 :: _ =>
        cases h
        exact .inr ⟨lo, hi, lo2, hi2, hlong, rfl, rfl⟩

end Sys2Proof

open Sys2Proof

/-- Settles O12: both forms of a decoded instruction are rows of the opcode map, whose class is the top bit. -/
theorem topBitSelectsTheClass : Obligations.TopBitSelectsTheClass := by
  intro w op tail i rest h
  obtain ⟨_, _, _, _, rfl⟩ | ⟨_, _, _, _, _, _, rfl⟩ := decodeWith_cons_ok_cases h <;>
    exact decodeOperands_isBranch w op _ _
end

section
/-! PROOFS. The family of 40_fetch_decode: a byte fetch (R133), an address fetch (R134) and the halt transition (R131). -/

namespace Sys2Proof

/-- An address by the value of its two bytes, low byte first (30_encoding R109). -/
theorem toNat_addrOfBytes (lo hi : Byte) : (addrOfBytes lo hi).toNat = lo.toNat + 256 * hi.toNat := by
  have happend : (addrOfBytes lo hi).toNat = hi.toNat <<< 8 ||| lo.toNat := BitVec.toNat_append hi lo
  rw [happend, ← Nat.shiftLeft_add_eq_or_of_lt lo.isLt, Nat.shiftLeft_eq]
  omega

end Sys2Proof

namespace Sys2Proof.Machine

/-- The fetch limit is the last address, so below it the fetch pointer does not wrap. -/
theorem toNat_add_one_of_ne_fetchLimit {fp : Addr} (h : fp ≠ Config.params.fetchLimit) :
    (fp + 1#16).toNat = fp.toNat + 1 := by
  rw [params_fetchLimit] at h
  bv_omega

theorem fetchAddr_at_limit (s : State) :
    fetchAddr Config.params.fetchLimit s = .error (raiseFetchError s Config.params.fetchLimit) := by
  rw [fetchAddr, fetchByte_at_limit]

/-- With only the low byte below the limit, that byte is read before the high byte's fetch faults. -/
theorem fetchAddr_of_add_one_eq_limit {fp : Addr} (s : State) (h : fp + 1#16 = Config.params.fetchLimit) :
    fetchAddr fp s = .error (raiseFetchError (collapse s fp) Config.params.fetchLimit) := by
  have hlow : fp ≠ Config.params.fetchLimit := by
    rw [params_fetchLimit] at h ⊢
    bv_omega
  rw [fetchAddr, fetchByte_of_ne s hlow]
  dsimp only
  rw [h, fetchByte_at_limit]

end Sys2Proof.Machine

open Sys2Proof Sys2Proof.Machine

/-- Settles O24, by the two sides of the fetch limit; that the pointer does not wrap holds because the limit is the last address. -/
theorem fetchByteReadsOrFaults : Obligations.FetchByteReadsOrFaults := by
  intro fp s
  constructor
  · rintro rfl
    exact fetchByte_at_limit s
  · intro hne
    rw [memRead_state]
    exact ⟨fetchByte_of_ne s hne, toNat_add_one_of_ne_fetchLimit hne⟩

/-- Settles O25, by where the two bytes lie: both below the limit, the high byte at it, the low byte at it. -/
theorem fetchAddrIsLittleEndian : Obligations.FetchAddrIsLittleEndian := by
  intro fp s
  refine ⟨fun hle => ?_, fun hhigh => ?_, ?_⟩
  · exact ⟨addrOfBytes (logicalValue s fp) (logicalValue s (fp + 1#16)), fetchAddr_of_le s hle, toNat_addrOfBytes _ _⟩
  · rw [memRead_state, hhigh]
    exact fetchAddr_of_add_one_eq_limit s hhigh
  · rintro rfl
    exact fetchAddr_at_limit s

/-- Settles O29: the halt transition is `enterHalted`, which writes `ctl` alone. -/
theorem haltSentinelHaltsAndNothingElse : Obligations.HaltSentinelHaltsAndNothingElse := by
  intro s hrun hip
  exact ⟨enterHalted s, step_at_haltAddr hrun hip, rfl, rfl, rfl⟩
end

section
/-! PROOFS. The family of 41_branch: a step at a branch opcode, from the bytes in memory (R160, R161). The two instructions differ
in the redirection of the target alone, which is opcode bit 6, so each fact is told once for both. -/

namespace Sys2Proof

theorem instrLength_of_branch {op : Byte} (h : op[7] = false) : instrLength op = 3 := if_pos (.inl h)

end Sys2Proof

namespace Sys2Proof.Machine

/-! ### The branch that the bytes at `IP` make (30_encoding R101, R102, R108) -/

/-- The meaning of a branch opcode: bit 6 redirects the target, the six bits below it have no effect. -/
theorem exec_decodeOperands_of_branch {op : Byte} (h : op[7] = false) (w : Bool) (a b : Addr) (s : State) :
    exec (decodeOperands w op a b) s = branch op[6] a s := by
  unfold decodeOperands
  rw [if_pos h]
  by_cases h6 : op[6] = false
  · rw [if_pos h6, h6]
    rfl
  · rw [if_neg h6, Bool.eq_true_of_not_eq_false h6]
    rfl

theorem waits_of_isBranch {i : Instr} (h : i.isBranch = true) (s : State) : waits i s = false := by
  cases i with
  | br | brR => rfl
  | nandw | nandwS | nandbit | nandbitS => cases h

/-- The target address of the branch at `IP`, as fetched. -/
def fetchedTarget (s : State) : Addr := addrOfBytes (logicalValue s (s.ip + 1#16)) (logicalValue s (s.ip + 2#16))

theorem instrAt_of_branch {s : State} (h : (logicalValue s s.ip)[7] = false) :
    instrAt s = decodeOperands Config.params.wideSel (logicalValue s s.ip) (fetchedTarget s) 0#16 :=
  if_pos (instrLength_of_branch h)

theorem exec_instrAt_of_branch {s : State} (h : (logicalValue s s.ip)[7] = false) (u : State) :
    exec (instrAt s) u = branch (logicalValue s s.ip)[6] (fetchedTarget s) u := by
  rw [instrAt_of_branch h, exec_decodeOperands_of_branch h]

theorem waits_instrAt_of_branch {s : State} (h : (logicalValue s s.ip)[7] = false) (u : State) :
    waits (instrAt s) u = false := by
  rw [instrAt_of_branch h]
  exact waits_of_isBranch ((decodeOperands_isBranch _ _ _ _).mpr h) u

/-- The fetch of a 3-byte instruction reads its bytes and no pointer. -/
theorem fetchCells_of_fits_three {s : State} (hl : instrLength (logicalValue s s.ip) = 3) (hf : fits s 3) :
    fetchCells (instrAt s) s = [s.ip, s.ip + 1#16, s.ip + 2#16] := by
  have hmin : min (instrAt s).length (Config.params.fetchLimit.toNat - s.ip.toNat) = 3 := by
    rw [instrAt_length, hl]
    unfold fits at hf
    omega
  have hnext : s.ip + 1#16 + 1#16 = s.ip + 2#16 := BitVec.add_assoc ..
  rw [fetchCells_eq hmin, sourcePointerCells_instrAt, if_pos hl]
  simp [cellsFrom, hnext]

/-! ### Where a branch fits (40_fetch_decode R141) -/

/-- Away from the halt sentinel three bytes fit, unless the second or the third would lie at the fetch limit. -/
theorem fits_three_iff {s : State} (h : s.ip ≠ Config.params.haltAddr) :
    fits s 3 ↔ s.ip + 1#16 ≠ Config.params.fetchLimit ∧ s.ip + 2#16 ≠ Config.params.fetchLimit := by
  rw [fits_iff, params_fetchLimit]
  rw [params_haltAddr] at h
  bv_omega

/-! ### What the two ends of a branch's step keep -/

theorem noCellWritten_of_cellKept {s t : State} (h : ∀ a, cellKept s t a) : noCellWritten s t :=
  fun a => ⟨h a, readsAsBefore_of_cellKept (h a)⟩

/-- The fetch error of any instruction keeps everything but the status (60_exceptions R221, R224). -/
theorem step_fetchError_frame {s : State} (hrun : s.ctl = .running) (hip : s.ip ≠ Config.params.haltAddr)
    (hf : ¬ fits s (instrLength (logicalValue s s.ip))) :
    ∃ t, step s = .next t ∧ t.ctl = .fatal ∧
      t.ip = s.ip ∧ t.flag = s.flag ∧ t.cycle = s.cycle ∧ sameChannels s t ∧ noCellWritten s t := by
  have hr := onlyReads_readAll (fetchCells (instrAt s) s) s
  exact ⟨_, step_of_not_fits hrun hip hf, rfl, hr.ip, hr.flag, hr.cycle, hr.channels,
    noCellWritten_of_cellKept hr.cells⟩

/-- A branch after reads completes: its pointer's cells, if it has one, are read after them, and only `IP` and `CYCLE` are
written. -/
theorem branch_readAll_completes {cells : List Addr} {r : Bool} {p : Addr} {s : State} (hf : fits s 3)
    (hc : cyclesLeft s Config.params.costBr) :
    branch r p (readAll cells s) = .next (retire (readAll (cells ++ pointerCells r p) s)
      (if s.flag then effective s r p else s.ip + 3#16) (s.cycle + BitVec.ofNat 64 Config.params.costBr)) := by
  have hr := onlyReads_readAll cells s
  have hf' : fits (readAll cells s) 3 := by
    unfold fits
    rw [hr.ip]
    exact hf
  rw [branch_completes hf' ((cyclesLeft_of_onlyReads hr _).mpr hc), resolve_value, resolve_state,
    effective_of_onlyReads hr, readAll_append, hr.flag, hr.ip, hr.cycle]

/-- The state after a branch that fits. -/
theorem step_at_branch {s : State} (hrun : s.ctl = .running) (hip : s.ip ≠ Config.params.haltAddr)
    (h7 : (logicalValue s s.ip)[7] = false) (hf : fits s 3) (hc : cyclesLeft s Config.params.costBr) :
    step s = .next (retire
      (readAll ([s.ip, s.ip + 1#16, s.ip + 2#16] ++ pointerCells (logicalValue s s.ip)[6] (fetchedTarget s)) s)
      (if s.flag then effective s (logicalValue s s.ip)[6] (fetchedTarget s) else s.ip + 3#16)
      (s.cycle + BitVec.ofNat 64 Config.params.costBr)) := by
  have hl := instrLength_of_branch h7
  rw [step_of_fits hrun hip (hl.symm ▸ hf), waits_instrAt_of_branch h7, if_neg Bool.false_ne_true,
    exec_instrAt_of_branch h7, fetchCells_of_fits_three hl hf, branch_readAll_completes hf hc]

theorem not_fits_of_branch_at_limit {s : State} (hip : s.ip ≠ Config.params.haltAddr)
    (h7 : (logicalValue s s.ip)[7] = false)
    (hlim : s.ip + 1#16 = Config.params.fetchLimit ∨ s.ip + 2#16 = Config.params.fetchLimit) :
    ¬ fits s (instrLength (logicalValue s s.ip)) := by
  rw [instrLength_of_branch h7, fits_three_iff hip]
  exact fun ⟨h1, h2⟩ => hlim.elim h1 h2

/-- R160 and R161 in one: the completed step at a branch opcode whose bit 6 is `r`. -/
theorem step_at_branch_completes {s : State} {r : Bool} (hrun : s.ctl = .running) (hip : s.ip ≠ Config.params.haltAddr)
    (h7 : (logicalValue s s.ip)[7] = false) (h6 : (logicalValue s s.ip)[6] = r)
    (h1 : s.ip + 1#16 ≠ Config.params.fetchLimit) (h2 : s.ip + 2#16 ≠ Config.params.fetchLimit)
    (hc : cyclesLeft s Config.params.costBr) :
    ∃ t, step s = .next t ∧ t.ip = (if s.flag = true then effective s r (fetchedTarget s) else s.ip + 3#16) ∧
      t.cycle.toNat = s.cycle.toNat + Config.params.costBr ∧ t.flag = s.flag ∧
      t.ctl = .running ∧ t.faultAddr = s.faultAddr ∧ sameChannels s t ∧ noCellWritten s t ∧
      (∀ a, readExactly ([s.ip, s.ip + 1#16, s.ip + 2#16] ++ pointerCells r (fetchedTarget s)) s t a) ∧
      (t.ip = Config.params.haltAddr → step t = .next { t with ctl := .halted }) := by
  have hstep := step_at_branch hrun hip h7 ((fits_three_iff hip).mpr ⟨h1, h2⟩) hc
  rw [h6] at hstep
  have hr := onlyReads_readAll ([s.ip, s.ip + 1#16, s.ip + 2#16] ++ pointerCells r (fetchedTarget s)) s
  obtain ⟨hctl, hfault⟩ := hr.status
  have hctl := hctl.trans hrun
  exact ⟨_, hstep, rfl, cycle_add_toNat hc, hr.flag, hctl, hfault, hr.channels, noCellWritten_of_cellKept hr.cells,
    readExactly_readAll _ s, step_at_haltAddr hctl⟩

end Sys2Proof.Machine

open Sys2Proof Sys2Proof.Machine

/-- Settles O43: without a redirection (`effective s false`) the target is used as fetched and no pointer is read. -/
theorem stepAtABrOpcodeFollowsItsRule : Obligations.StepAtABrOpcodeFollowsItsRule := by
  intro s hrun hip h7 h6
  constructor
  · exact fun hlim => step_fetchError_frame hrun hip (not_fits_of_branch_at_limit hip h7 hlim)
  · exact step_at_branch_completes hrun hip h7 h6

/-- Settles O44: with the redirection (`effective s true`) the pointer at any address is read, taken or not. -/
theorem stepAtABrROpcodeFollowsItsRule : Obligations.StepAtABrROpcodeFollowsItsRule := by
  rintro s _ hrun hip h7 h6 rfl
  constructor
  · exact fun hlim => step_fetchError_frame hrun hip (not_fits_of_branch_at_limit hip h7 hlim)
  · exact step_at_branch_completes hrun hip h7 h6
end

section
/-! PROOFS. The family of 30_encoding, continued: the two round trips of the encoder and the decoder (R100 to R111), for both
values of `WIDE_SEL`, from what each side does with the opcode byte and with an address. -/

namespace Sys2Proof

/-! ### The two bytes of an address (30_encoding R109) -/

theorem toNat_loByte (a : Addr) : (loByte a).toNat = a.toNat % 256 := by simp [loByte]

theorem toNat_hiByte (a : Addr) : (hiByte a).toNat = a.toNat / 256 := by
  have := a.isLt
  rw [hiByte, BitVec.extractLsb'_toNat, Nat.shiftRight_eq_div_pow]
  omega

@[simp] theorem addrOfBytes_loByte_hiByte (a : Addr) : addrOfBytes (loByte a) (hiByte a) = a := by
  apply BitVec.eq_of_toNat_eq
  rw [toNat_addrOfBytes, toNat_loByte, toNat_hiByte]
  omega

@[simp] theorem addrBytes_addrOfBytes (lo hi : Byte) : addrBytes (addrOfBytes lo hi) = [lo, hi] := by
  have hlo : loByte (addrOfBytes lo hi) = lo := by
    apply BitVec.eq_of_toNat_eq
    rw [toNat_loByte, toNat_addrOfBytes]
    omega
  have hhi : hiByte (addrOfBytes lo hi) = hi := by
    apply BitVec.eq_of_toNat_eq
    rw [toNat_hiByte, toNat_addrOfBytes]
    omega
  rw [addrBytes, hlo, hhi]

/-! ### The fields of the opcode byte an encoder writes (30_encoding R102, R103) -/

theorem brOpcode_fields : ∀ ign : BitVec 6,
    (0#2 ++ ign)[7] = false ∧ (0#2 ++ ign)[6] = false ∧ (0#2 ++ ign).extractLsb' 0 6 = ign := by decide

theorem brROpcode_fields : ∀ ign : BitVec 6,
    (1#2 ++ ign)[7] = false ∧ (1#2 ++ ign)[6] = true ∧ (1#2 ++ ign).extractLsb' 0 6 = ign := by decide

theorem nandOpcode_fields : ∀ (w s : Bool) (idx : BitIndex) (rs rd : Bool),
    (nandOpcode w s idx rs rd)[7] = true ∧ (nandOpcode w s idx rs rd)[6] = w ∧ (nandOpcode w s idx rs rd)[5] = s ∧
    opIndex (nandOpcode w s idx rs rd) = idx ∧ opRedirectsSource (nandOpcode w s idx rs rd) = rs ∧
    opRedirectsDest (nandOpcode w s idx rs rd) = rd := by decide

/-- The opcode map at a branch opcode as the encoder writes it. -/
theorem decodeOperands_br (w : Bool) (ign : BitVec 6) (a b : Addr) :
    decodeOperands w (0#2 ++ ign) a b = .br ign a := by
  obtain ⟨hclass, hredirect, hign⟩ := brOpcode_fields ign
  rw [decodeOperands, if_pos hclass, if_pos hredirect, hign]

theorem decodeOperands_brR (w : Bool) (ign : BitVec 6) (a b : Addr) :
    decodeOperands w (1#2 ++ ign) a b = .brR ign a := by
  obtain ⟨hclass, hredirect, hign⟩ := brROpcode_fields ign
  rw [decodeOperands, if_pos hclass, if_neg (by simp [hredirect]), hign]

/-- The opcode map at a NAND opcode as the encoder writes it: W against `WIDE_SEL` gives the width, S the operand form. -/
theorem decodeOperands_nandOpcode (wideSel w s : Bool) (idx : BitIndex) (rs rd : Bool) (a b : Addr) :
    decodeOperands wideSel (nandOpcode w s idx rs rd) a b =
      if w = wideSel then if s = false then .nandw idx rs rd a b else .nandwS idx rs rd a
      else if s = false then .nandbit idx rs rd a b else .nandbitS idx rs rd a := by
  obtain ⟨hclass, hwide, hsingle, hidx, hrs, hrd⟩ := nandOpcode_fields w s idx rs rd
  rw [decodeOperands, if_neg (by simp [hclass]), hwide, hsingle, hidx, hrs, hrd]

/-! ### Decoding an encoding -/

/-- An opcode that announces three bytes, and one address. -/
theorem decodeWith_short {op : Byte} (h : instrLength op = 3) (w : Bool) (a : Addr) (rest : List Byte) :
    decodeWith w (op :: addrBytes a ++ rest) = .ok (decodeOperands w op a 0#16, rest) := by
  simp [addrBytes, decodeWith, h]

/-- An opcode that announces five bytes, and two addresses. -/
theorem decodeWith_long {op : Byte} (h : instrLength op ≠ 3) (w : Bool) (a b : Addr) (rest : List Byte) :
    decodeWith w (op :: addrBytes a ++ addrBytes b ++ rest) = .ok (decodeOperands w op a b, rest) := by
  simp [addrBytes, decodeWith, h]

/-- The NAND forms of one operand, in either width. -/
theorem decodeWith_nandOpcode_short (wideSel w : Bool) (idx : BitIndex) (rs rd : Bool) (a : Addr) (rest : List Byte) :
    decodeWith wideSel (nandOpcode w true idx rs rd :: addrBytes a ++ rest) =
      .ok (if w = wideSel then .nandwS idx rs rd a else .nandbitS idx rs rd a, rest) := by
  rw [decodeWith_short (Laws.LengthByOpcode.instrLength_nandOpcode w true idx rs rd), decodeOperands_nandOpcode]
  simp

/-- The NAND forms of two operands, in either width. -/
theorem decodeWith_nandOpcode_long (wideSel w : Bool) (idx : BitIndex) (rs rd : Bool) (a b : Addr) (rest : List Byte) :
    decodeWith wideSel (nandOpcode w false idx rs rd :: addrBytes a ++ addrBytes b ++ rest) =
      .ok (if w = wideSel then .nandw idx rs rd a b else .nandbit idx rs rd a b, rest) := by
  have hlen : instrLength (nandOpcode w false idx rs rd) ≠ 3 := by
    rw [Laws.LengthByOpcode.instrLength_nandOpcode]
    decide
  rw [decodeWith_long hlen, decodeOperands_nandOpcode]
  simp

theorem decodeWith_encodeWith (w : Bool) (i : Instr) (rest : List Byte) :
    decodeWith w (encodeWith w i ++ rest) = .ok (i, rest) := by
  cases i with
  | br ign t =>
    rw [encodeWith, decodeWith_short (Laws.LengthByOpcode.instrLength_br ign), decodeOperands_br]
  | brR ign t =>
    rw [encodeWith, decodeWith_short (Laws.LengthByOpcode.instrLength_brR ign), decodeOperands_brR]
  | nandw ign rs rd src dst => rw [encodeWith, decodeWith_nandOpcode_long, if_pos rfl]
  | nandwS ign rs ignRd a => rw [encodeWith, decodeWith_nandOpcode_short, if_pos rfl]
  | nandbit idx rs rd src dst => rw [encodeWith, decodeWith_nandOpcode_long, if_neg (Bool.not_ne_self w)]
  | nandbitS idx rs ignRd a => rw [encodeWith, decodeWith_nandOpcode_short, if_neg (Bool.not_ne_self w)]

/-! ### Encoding a decoded instruction: no bit of the opcode is lost -/

theorem branchOpcode_rebuilt : ∀ op : Byte, op[7] = false →
    (op[6] = false → 0#2 ++ op.extractLsb' 0 6 = op) ∧ (op[6] = true → 1#2 ++ op.extractLsb' 0 6 = op) := by decide

theorem nandOpcode_rebuilt : ∀ op : Byte, op[7] = true →
    nandOpcode op[6] op[5] (opIndex op) (opRedirectsSource op) (opRedirectsDest op) = op := by decide

/-- The bytes of a row of the opcode map: the opcode, the first address, and the second where the opcode announces it. -/
theorem encodeWith_decodeOperands (w : Bool) (op : Byte) (a b : Addr) :
    encodeWith w (decodeOperands w op a b) =
      op :: addrBytes a ++ if instrLength op = 3 then [] else addrBytes b := by
  by_cases hclass : op[7] = false
  · obtain ⟨hbr, hbrR⟩ := branchOpcode_rebuilt op hclass
    rw [decodeOperands, if_pos hclass, if_pos (instrLength_of_branch hclass), List.append_nil]
    by_cases hredirect : op[6] = false
    · rw [if_pos hredirect, encodeWith, hbr hredirect]
    · rw [if_neg hredirect, encodeWith, hbrR (Bool.eq_true_of_not_eq_false hredirect)]
  · have hop := nandOpcode_rebuilt op (Bool.eq_true_of_not_eq_false hclass)
    rw [decodeOperands, if_neg hclass, instrLength]
    by_cases hwide : op[6] = w
    · rw [if_pos hwide]
      rw [hwide] at hop
      by_cases hsingle : op[5] = false <;> simp_all [encodeWith]
    · rw [if_neg hwide]
      rw [Bool.eq_not_of_ne hwide] at hop
      by_cases hsingle : op[5] = false <;> simp_all [encodeWith]

end Sys2Proof

open Sys2Proof Sys2Proof.Machine

/-- Settles O9, by the constructors of the instruction (`decodeWith_encodeWith`). -/
theorem decodeOfEncodeIsTheInstruction : Obligations.DecodeOfEncodeIsTheInstruction :=
  decodeWith_encodeWith

/-- Settles O10: a decoded instruction is a row of the opcode map, short or long, whose encoding is its opcode and its addresses. -/
theorem encodeOfDecodeIsTheBytes : Obligations.EncodeOfDecodeIsTheBytes := by
  intro w bytes i rest h
  cases bytes with
  | nil => cases h
  | cons op tail =>
    obtain ⟨lo, hi, hlen, rfl, rfl⟩ | ⟨lo, hi, lo2, hi2, hlen, rfl, rfl⟩ := decodeWith_cons_ok_cases h
    · rw [encodeWith_decodeOperands, if_pos hlen]
      simp
    · rw [encodeWith_decodeOperands, if_neg hlen]
      simp

/-- Settles O13, by the two lengths an opcode can announce. -/
theorem everyOpcodeByteDecodes : Obligations.EveryOpcodeByteDecodes := by
  intro w op b1 b2 b3 b4 tail
  have hlength : (instrLength op = 3 ↔ (op[7] = false ∨ op[5] = true)) ∧
      (instrLength op = 5 ↔ ¬ (op[7] = false ∨ op[5] = true)) := by
    unfold instrLength
    split <;> simp_all
  rcases instrLength_cases op with hshort | hlong
  · have hdecode := decodeWith_short hshort w (addrOfBytes b1 b2) (b3 :: b4 :: tail)
    rw [addrBytes_addrOfBytes] at hdecode
    exact ⟨_, _, hdecode, decodeOperands_length w op _ _, by simp [hshort], hlength⟩
  · have hne : instrLength op ≠ 3 := by omega
    have hdecode := decodeWith_long hne w (addrOfBytes b1 b2) (addrOfBytes b3 b4) tail
    rw [addrBytes_addrOfBytes, addrBytes_addrOfBytes] at hdecode
    exact ⟨_, tail, hdecode, decodeOperands_length w op _ _, by omega, hlength⟩

/-- Settles O11: six closed words, and the definition of the machine's decoder. -/
theorem writtenOutWordsDecode : Obligations.WrittenOutWordsDecode := by
  refine ⟨?_, ?_, ?_, ?_, ?_, ?_, fun _ => rfl⟩ <;> decide

/-- Settles O14: no meaning and no wait takes an ignored field into account; one case per constructor. -/
theorem ignoredBitsHaveNoEffect : Obligations.IgnoredBitsHaveNoEffect := by
  intro i s
  cases i <;> exact ⟨rfl, rfl, rfl⟩
end

section
/-! PROOFS. What a completed instruction leaves, told once: a branch, the read-trigger, the write-trigger and the NAND proper
(41_branch R160, 42_nand_io R184 to R190), each as a list of named facts about the state before and the state after. -/

namespace Sys2Proof.Machine

/-! ### Cells that were only read -/

theorem cellKept_of_readExactly {cells : List Addr} {s t : State} {a : Addr} (h : readExactly cells s t a) :
    cellKept s t a := by
  by_cases ha : a ∈ cells
  · obtain ⟨hp, he⟩ := h.1 ha
    have hk := cellKept_collapse s a a
    unfold cellKept at hk ⊢
    rwa [physAt_collapse, entryAt_collapse, if_pos rfl, if_pos rfl, ← hp, ← he] at hk
  · exact .inl (h.2 ha)

theorem kept_of_readExactly {cells : List Addr} {s t : State} {a : Addr} (h : readExactly cells s t a) :
    cellKept s t a ∧ readsAsBefore s t a :=
  have hk := cellKept_of_readExactly h
  ⟨hk, readsAsBefore_of_cellKept hk⟩

theorem sameStatus_trans {s t u : State} (h : sameStatus s t) (h' : sameStatus t u) : sameStatus s u :=
  ⟨h'.1.trans h.1, h'.2.trans h.2⟩

theorem sameChannels_trans {s t u : State} (h : sameChannels s t) (h' : sameChannels t u) : sameChannels s u := by
  obtain ⟨hinput, hend, hready, hin, hout⟩ := h
  obtain ⟨hinput', hend', hready', hin', hout'⟩ := h'
  exact ⟨hinput'.trans hinput, hend'.trans hend, hready'.trans hready, hin'.trans hin, hout'.trans hout⟩

/-! ### The four effects -/

/-- A branch that completes: everything but `IP` and `CYCLE` is as it was (41_branch R160, R161). -/
structure BranchDone (cells : List Addr) (s t : State) : Prop where
  flag : t.flag = s.flag
  cycle : t.cycle.toNat = s.cycle.toNat + Config.params.costBr
  status : sameStatus s t
  channels : sameChannels s t
  cells : ∀ a, readExactly cells s t a

/-- The read-trigger that completes with the byte `b` (42_nand_io R184). -/
structure InputDone (cells : List Addr) (len : Nat) (b : Byte) (s t : State) : Prop where
  byte : physAt t Config.params.ioCell = b
  entry : entryAt t Config.params.ioCell = if Config.params.ioCell ∈ cells then
    (entryAt s Config.params.ioCell).filter (fun e => !isDue e s.cycle) else entryAt s Config.params.ioCell
  flag : t.flag = true
  cycle : t.cycle.toNat = s.cycle.toNat + Config.params.costIo
  ip : t.ip.toNat = s.ip.toNat + len
  status : sameStatus s t
  input : s.input = b :: t.input ∨
    (s.input = [] ∧ t.input = [] ∧ s.inputEnd = true ∧ Config.eofMode = Config.EofMode.byte b)
  inputEnd : t.inputEnd = s.inputEnd
  outReady : t.outReady = s.outReady
  inHist : t.inHist = s.inHist ++ [b]
  outHist : t.outHist = s.outHist
  others : ∀ a, a ≠ Config.params.ioCell → readExactly cells s t a

/-- The write-trigger that completes (42_nand_io R185). -/
structure OutputDone (cells : List Addr) (len : Nat) (s t : State) : Prop where
  flag : t.flag = true
  cycle : t.cycle.toNat = s.cycle.toNat + Config.params.costIo
  ip : t.ip.toNat = s.ip.toNat + len
  status : sameStatus s t
  input : t.input = s.input
  inputEnd : t.inputEnd = s.inputEnd
  outReady : t.outReady = s.outReady
  inHist : t.inHist = s.inHist
  outHist : t.outHist = s.outHist ++ [logicalValue s Config.params.ioCell]
  cells : ∀ a, readExactly (cells ++ [Config.params.ioCell]) s t a

/-- The NAND proper of cell `x` into cell `y` (42_nand_io R186 to R190), in either width. -/
structure NandDone (cells : List Addr) (g : Granularity) (x y : Addr) (len : Nat) (s t : State) : Prop where
  byte : physAt t y = nandResult g (logicalValue s x) (logicalValue s y)
  entry : entryAt t y = some ⟨s.cycle + BitVec.ofNat 64 (nandCost g + Config.params.decayPeriod), g⟩
  flag : t.flag = nandFlag g (logicalValue s x) (logicalValue s y)
  cycle : t.cycle.toNat = s.cycle.toNat + nandCost g
  ip : t.ip.toNat = s.ip.toNat + len
  status : sameStatus s t
  channels : sameChannels s t
  others : ∀ a, a ≠ y → readExactly (cells ++ [x, y]) s t a

/-- The effect of the completed instruction `i`, by its resolved destination. -/
inductive Effect (cells : List Addr) (i : Instr) (s t : State) : Prop where
  | branch (dst : destination i s = none) (src : source i s = none) (kind : i.isBranch = true)
      (cost : cycleCost i s = Config.params.costBr) (done : BranchDone cells s t)
  | input (b : Byte) (dst : destination i s = some Config.params.inTrig) (kind : i.isBranch = false)
      (cost : cycleCost i s = Config.params.costIo) (done : InputDone cells i.length b s t)
  | output (dst : destination i s = some Config.params.outTrig) (kind : i.isBranch = false)
      (cost : cycleCost i s = Config.params.costIo) (done : OutputDone cells i.length s t)
  | nand (g : Granularity) (x y : Addr) (src : source i s = some x) (dst : destination i s = some y)
      (kind : i.isBranch = false) (plain : ¬ isTrigger y) (cost : cycleCost i s = nandCost g)
      (done : NandDone cells g x y i.length s t)

/-! ### Each completed state has its effect -/

/-- Below the fetch limit `IP` does not wrap (40_fetch_decode R142). -/
theorem ip_add_toNat {s : State} {len : Nat} (h : fits s len) :
    (s.ip + BitVec.ofNat 16 len).toNat = s.ip.toNat + len := by
  rw [fits_iff] at h
  bv_omega

theorem branchDone_retire {cells : List Addr} {s : State} (p : Addr) (hc : cyclesLeft s Config.params.costBr) :
    BranchDone cells s (retire (readAll cells s) p (s.cycle + BitVec.ofNat 64 Config.params.costBr)) :=
  have hr := onlyReads_readAll cells s
  { flag := hr.flag, cycle := cycle_add_toNat hc, status := hr.status, channels := hr.channels,
    cells := readExactly_readAll cells s }

/-- A byte raw-written into the I/O cell after the reads of `cells`. -/
theorem inputDone_of_takeInput {cells : List Addr} {len : Nat} {b : Byte} {s s1 : State} (hf : fits s len)
    (hc : cyclesLeft s Config.params.costIo) (h : takeInput (readAll cells s) = some (b, s1)) :
    InputDone cells len b s (retire (setFlag (memWrite s1 Config.params.ioCell b) ioFlag) (s.ip + BitVec.ofNat 16 len)
      (s.cycle + BitVec.ofNat 64 Config.params.costIo)) := by
  have hr := onlyReads_readAll cells s
  have ht := tookInput_of_takeInput h
  obtain ⟨hctl, hfault⟩ := hr.status
  obtain ⟨hinput, hend, hready, hin, hout⟩ := hr.channels
  have hphys : ∀ a, physAt s1 a = physAt (readAll cells s) a := fun a => by unfold physAt; rw [ht.phys]
  refine ⟨?_, ?_, rfl, cycle_add_toNat hc, ip_add_toNat hf, ⟨ht.ctl.trans hctl, ht.faultAddr.trans hfault⟩, ?_,
    ht.inputEnd.trans hend, ht.outReady.trans hready, hin ▸ ht.inHist, ht.outHist.trans hout, fun a ha => ?_⟩
  · simp
  · obtain ⟨hread, hskip⟩ := readExactly_readAll cells s Config.params.ioCell
    rw [entryAt_retire, entryAt_setFlag, entryAt_memWrite, ht.entryAt_eq]
    split
    next hmem => exact (hread hmem).2
    next hmem => exact (hskip hmem).2
  · rw [← hinput, ← hend]
    exact ht.input
  · exact readExactly_congr (readExactly_readAll cells s a) (by simp [ha, hphys]) (by simp [ht.entryAt_eq])

theorem outputDone_emitByte {cells : List Addr} {len : Nat} {s : State} (hf : fits s len)
    (hc : cyclesLeft s Config.params.costIo) :
    OutputDone cells len s (retire (setFlag (emitByte (collapse (readAll cells s) Config.params.ioCell)
      (logicalValue s Config.params.ioCell)) ioFlag) (s.ip + BitVec.ofNat 16 len)
      (s.cycle + BitVec.ofNat 64 Config.params.costIo)) := by
  have hr := onlyReads_trans (onlyReads_readAll cells s) (onlyReads_collapse _ Config.params.ioCell)
  obtain ⟨hinput, hend, hready, hin, hout⟩ := hr.channels
  refine ⟨rfl, cycle_add_toNat hc, ip_add_toNat hf, hr.status, hinput, hend, hready, hin, ?_, fun a => ?_⟩
  · exact congrArg (· ++ _) hout
  · have hread := readExactly_readAll (cells ++ [Config.params.ioCell]) s a
    rw [readAll_append] at hread
    exact hread

theorem nandDone_nandNext {cells : List Addr} {g : Granularity} {x y : Addr} {len : Nat} {s : State} (hf : fits s len)
    (hc : cyclesLeft s (nandCost g + Config.params.decayPeriod)) :
    NandDone cells g x y len s (nandNext g x y (s.ip + BitVec.ofNat 16 len) (readAll cells s)) := by
  have hr := onlyReads_readAll cells s
  have hcost : cyclesLeft s (nandCost g) := by
    unfold cyclesLeft at hc ⊢
    omega
  refine ⟨?_, ?_, ?_, ?_, ip_add_toNat hf, ?_, ?_, fun a ha => ?_⟩
  · rw [nandNext_physAt, onlyReads_logicalValue hr, onlyReads_logicalValue hr]
  · rw [nandNext_entryAt, hr.cycle, BitVec.add_assoc, ← BitVec.ofNat_add]
  · rw [nandNext_flag, onlyReads_logicalValue hr, onlyReads_logicalValue hr]
  · rw [nandNext_cycle, hr.cycle, cycle_add_toNat hcost]
  · exact sameStatus_trans hr.status (nandNext_sameStatus g x y _ _)
  · exact sameChannels_trans hr.channels (nandNext_sameChannels g x y _ _)
  · have hread := readExactly_readAll (cells ++ [x, y]) s a
    rw [readAll_append] at hread
    exact readExactly_congr hread (by simp [nandNext, ha]) (by simp [nandNext, ha])

theorem Completed.effect {cells : List Addr} {i : Instr} {s t : State} (hf : fits s i.length)
    (h : Completed cells i s t) : Effect cells i s t := by
  rcases h with ⟨hdst, hsrc, hclass, hcost, hc, p, rfl⟩ | ⟨hdst, hclass, hcost, hc, b, s1, htake, rfl⟩ |
    ⟨hdst, hclass, hcost, hc, rfl⟩ | ⟨g, x, y, hsrc, hdst, hclass, hplain, hcost, hc, rfl⟩
  · exact .branch hdst hsrc hclass hcost (branchDone_retire p hc)
  · exact .input b hdst hclass hcost (inputDone_of_takeInput hf hc htake)
  · exact .output hdst hclass hcost (outputDone_emitByte hf hc)
  · exact .nand g x y hsrc hdst hclass hplain hcost (nandDone_nandNext hf hc)

/-! ### The cells read as data, by the destination -/

theorem source_of_destination {i : Instr} {s : State} {y : Addr} (h : destination i s = some y) :
    ∃ x, source i s = some x := by
  cases i with
  | br | brR => cases h
  | nandw | nandwS | nandbit | nandbitS => exact ⟨_, rfl⟩

theorem dataCells_of_branch {i : Instr} {s : State} (h : source i s = none) : dataCells i s = [] := by
  simp [dataCells, h]

theorem dataCells_of_input {i : Instr} {s : State} (h : destination i s = some Config.params.inTrig) :
    dataCells i s = [] := by
  obtain ⟨x, hx⟩ := source_of_destination h
  simp [dataCells, hx, h]

theorem dataCells_of_output {i : Instr} {s : State} (h : destination i s = some Config.params.outTrig) :
    dataCells i s = [Config.params.ioCell] := by
  obtain ⟨x, hx⟩ := source_of_destination h
  simp [dataCells, hx, h, inTrig_ne_outTrig.symm]

theorem dataCells_of_plain {i : Instr} {s : State} {x y : Addr} (hx : source i s = some x)
    (hy : destination i s = some y) (hplain : ¬ isTrigger y) : dataCells i s = [x, y] := by
  obtain ⟨hin, hout⟩ := not_or.mp hplain
  simp [dataCells, hx, hy, hin, hout]

/-! ### What every effect keeps -/

namespace Effect

variable {cells : List Addr} {i : Instr} {s t : State}

theorem status (h : Effect cells i s t) : sameStatus s t := by
  cases h with
  | branch _ _ _ _ done => exact done.status
  | input _ _ _ _ done => exact done.status
  | output _ _ _ done => exact done.status
  | nand _ _ _ _ _ _ _ _ done => exact done.status

/-- The cycle accounting of 70_reset R258. -/
theorem cycle (h : Effect cells i s t) : t.cycle.toNat = s.cycle.toNat + cycleCost i s := by
  cases h with
  | branch _ _ _ cost done => rw [cost, done.cycle]
  | input _ _ _ cost done => rw [cost, done.cycle]
  | output _ _ cost done => rw [cost, done.cycle]
  | nand _ _ _ _ _ _ _ cost done => rw [cost, done.cycle]

/-- A cell the instruction does not write shows the reads of its fetch, its redirections and its data (20_memory R63, R67). -/
theorem readExactly {a : Addr} (h : Effect cells i s t) (hf : fits s i.length) (hw : writtenCell i s ≠ some a) :
    readExactly (cells ++ dataCells i s) s t a := by
  rw [writtenCell, if_pos hf] at hw
  cases h with
  | branch dst src _ _ done =>
    rw [dataCells_of_branch src, List.append_nil]
    exact done.cells a
  | input _ dst _ _ done =>
    rw [dataCells_of_input dst, List.append_nil]
    rw [dst] at hw
    exact done.others a fun ha => hw (by simp [ha])
  | output dst _ _ done =>
    rw [dataCells_of_output dst]
    exact done.cells a
  | nand g x y src dst _ plain _ done =>
    obtain ⟨hin, hout⟩ := not_or.mp plain
    rw [dataCells_of_plain src dst plain]
    rw [dst] at hw
    exact done.others a fun ha => hw (by simp [ha, hin, hout])

/-! The destination tells which effect it is. -/

theorem inputDone (h : Effect cells i s t) (hdst : destination i s = some Config.params.inTrig) :
    ∃ b, InputDone cells i.length b s t := by
  cases h with
  | branch dst => rw [hdst] at dst; cases dst
  | input b _ _ _ done => exact ⟨b, done⟩
  | output dst => rw [hdst, Option.some.injEq] at dst; exact absurd dst inTrig_ne_outTrig
  | nand _ _ _ _ dst _ plain => rw [hdst] at dst; cases dst; exact absurd (.inl rfl) plain

theorem outputDone (h : Effect cells i s t) (hdst : destination i s = some Config.params.outTrig) :
    OutputDone cells i.length s t := by
  cases h with
  | branch dst => rw [hdst] at dst; cases dst
  | input _ dst => rw [hdst, Option.some.injEq] at dst; exact absurd dst.symm inTrig_ne_outTrig
  | output _ _ _ done => exact done
  | nand _ _ _ _ dst _ plain => rw [hdst] at dst; cases dst; exact absurd (.inr rfl) plain

theorem nandDone {y : Addr} (h : Effect cells i s t) (hdst : destination i s = some y) (hplain : ¬ isTrigger y) :
    ∃ g x, NandDone cells g x y i.length s t := by
  cases h with
  | branch dst => rw [hdst] at dst; cases dst
  | input _ dst => rw [hdst] at dst; cases dst; exact absurd (.inl rfl) hplain
  | output dst => rw [hdst] at dst; cases dst; exact absurd (.inr rfl) hplain
  | nand g x _ _ dst _ _ _ done => rw [hdst] at dst; cases dst; exact ⟨g, x, done⟩

end Effect

end Sys2Proof.Machine
end

section
/-! PROOFS. What a meaning and a step answer: the effect of the completed instruction, a hold, or the refusal of an overflow of the
cycle counter (10_state R37, 42_nand_io R193, 40_fetch_decode R146). -/

namespace Sys2Proof.Machine

/-! ### Refusals of the shared operations -/

theorem branch_refused {r : Bool} {tgt : Addr} {s : State} (hf : fits s 3)
    (hc : ¬ cyclesLeft s Config.params.costBr) : branch r tgt s = .refused .cycleOverflow := by
  unfold branch
  rw [fallThrough_of_fits hf]
  dsimp only
  rw [addCycles_of_ge hc]

theorem inTrigger_refused {fp : Addr} {held s s1 : State} {b : Byte} (h : takeInput s = some (b, s1))
    (hc : ¬ cyclesLeft s Config.params.costIo) : inTrigger fp held s = .refused .cycleOverflow := by
  unfold inTrigger
  rw [h]
  dsimp only
  rw [(tookInput_of_takeInput h).cycle, addCycles_of_ge hc]

theorem outTrigger_refused {fp : Addr} {held s : State} (h : s.outReady = true)
    (hc : ¬ cyclesLeft s Config.params.costIo) : outTrigger fp held s = .refused .cycleOverflow := by
  unfold outTrigger
  rw [if_pos h]
  dsimp only
  rw [addCycles_of_ge hc]

theorem nandProper_refused_cycle {g : Granularity} {src dst fp : Addr} {s : State} (hc : ¬ cyclesLeft s (nandCost g)) :
    nandProper g src dst fp s = .refused .cycleOverflow := by
  unfold nandProper
  dsimp only
  rw [addCycles_of_ge hc]

theorem nandProper_refused_deadline {g : Granularity} {src dst fp : Addr} {s : State} (hc : cyclesLeft s (nandCost g))
    (hd : ¬ cyclesLeft s (nandCost g + Config.params.decayPeriod)) :
    nandProper g src dst fp s = .refused .deadlineOverflow := by
  have hsum : ¬ (s.cycle + BitVec.ofNat 64 (nandCost g)).toNat + Config.params.decayPeriod <
      2 ^ Config.params.cycleWidth := by
    rw [cycle_add_toNat hc, Nat.add_assoc]
    exact hd
  unfold nandProper
  dsimp only
  rw [addCycles_of_lt hc]
  dsimp only
  rw [addCycles_of_ge hsum]

/-! ### Dispatch, by the resolved destination (42_nand_io R183) -/

theorem dispatch_inTrig {g : Granularity} {fp : Addr} {held : State} {o : Operands} (h : o.dst = Config.params.inTrig) :
    dispatch g fp held o = inTrigger fp held o.st := if_pos h

theorem dispatch_outTrig {g : Granularity} {fp : Addr} {held : State} {o : Operands} (h : o.dst = Config.params.outTrig) :
    dispatch g fp held o = outTrigger fp held o.st := by
  rw [dispatch, if_neg (h ▸ inTrig_ne_outTrig.symm), if_pos h]

theorem dispatch_plain {g : Granularity} {fp : Addr} {held : State} {o : Operands} (h : ¬ isTrigger o.dst) :
    dispatch g fp held o = nandProper g o.src o.dst fp o.st := by
  obtain ⟨hin, hout⟩ := not_or.mp h
  rw [dispatch, if_neg hin, if_neg hout]

/-- A read-trigger that need not hold has a byte to take. -/
theorem takeInput_of_portHolds_false {s : State} (h : portHolds Config.params.inTrig s = false) :
    ∃ b s1, takeInput s = some (b, s1) := by
  cases htake : takeInput s with
  | none => simp [portHolds, htake] at h
  | some x => exact ⟨x.1, x.2, rfl⟩

theorem outReady_of_portHolds_false {s : State} (h : portHolds Config.params.outTrig s = false) : s.outReady = true := by
  simpa [portHolds, inTrig_ne_outTrig.symm] using h

/-- What an I/O form that need not hold answers, by the cycles left. -/
theorem dispatch_trigger_outcome {g : Granularity} {fp : Addr} {held : State} {o : Operands} (ht : isTrigger o.dst)
    (hw : portHolds o.dst o.st = false) :
    (cyclesLeft o.st Config.params.costIo → ∃ t, dispatch g fp held o = .next t) ∧
    (¬ cyclesLeft o.st Config.params.costIo → dispatch g fp held o = .refused .cycleOverflow) := by
  rcases ht with hin | hout
  · rw [dispatch_inTrig hin]
    obtain ⟨b, s1, htake⟩ := takeInput_of_portHolds_false (hin ▸ hw)
    exact ⟨fun hc => ⟨_, inTrigger_completes htake hc⟩, inTrigger_refused htake⟩
  · rw [dispatch_outTrig hout]
    have hready := outReady_of_portHolds_false (hout ▸ hw)
    exact ⟨fun hc => ⟨_, outTrigger_completes hready hc⟩, outTrigger_refused hready⟩

/-! ### What a meaning answers -/

/-- The instruction is a NAND proper: its resolved destination is no trigger, so that it schedules decay (20_memory R65). -/
def schedules (i : Instr) (s : State) : Prop := ∃ y, destination i s = some y ∧ ¬ isTrigger y

theorem schedules_of_onlyReads {s t : State} (h : OnlyReads s t) (i : Instr) : schedules i t ↔ schedules i s := by
  unfold schedules
  rw [destination_of_onlyReads h]

/-- What an instruction that fits and need not wait answers, told of any function with its outcome: refused where its cost or its
deadline would overflow, else a next state (92_eei D11). -/
def Answers (i : Instr) (s : State) (answer : Host.Outcome State Fault Refusal) : Prop :=
  (¬ cyclesLeft s (cycleCost i s) ∧ answer = .refused .cycleOverflow) ∨
  (cyclesLeft s (cycleCost i s) ∧ schedules i s ∧ ¬ cyclesLeft s (cycleCost i s + Config.params.decayPeriod) ∧
    answer = .refused .deadlineOverflow) ∨
  (cyclesLeft s (cycleCost i s) ∧ (schedules i s → cyclesLeft s (cycleCost i s + Config.params.decayPeriod)) ∧
    ∃ t, answer = .next t)

theorem answers_of_onlyReads {s t : State} (h : OnlyReads s t) {i : Instr} {answer : Host.Outcome State Fault Refusal}
    (ha : Answers i t answer) : Answers i s answer := by
  unfold Answers at ha ⊢
  simpa only [cyclesLeft_of_onlyReads h, cycleCost_of_onlyReads h, schedules_of_onlyReads h] using ha

/-- A meaning without a deadline. -/
theorem answers_of_not_schedules {i : Instr} {s : State} {answer : Host.Outcome State Fault Refusal}
    (hs : ¬ schedules i s)
    (h : (cyclesLeft s (cycleCost i s) → ∃ t, answer = .next t) ∧
      (¬ cyclesLeft s (cycleCost i s) → answer = .refused .cycleOverflow)) : Answers i s answer := by
  obtain ⟨hnext, hrefused⟩ := h
  by_cases hc : cyclesLeft s (cycleCost i s)
  · exact .inr (.inr ⟨hc, fun hs' => absurd hs' hs, hnext hc⟩)
  · exact .inl ⟨hc, hrefused hc⟩

theorem exec_answers {i : Instr} {s : State} (hf : fits s i.length) (hw : waits i s = false) :
    Answers i s (exec i s) := by
  rcases exec_shape hf with ⟨_, hdst, _, _, hcost, hlen, r, tgt, he, _⟩ | ⟨_, g, o, he, hst, _, hdst, hport, htrig, hplain⟩
  · rw [he]
    have hf3 : fits s 3 := hlen ▸ hf
    refine answers_of_not_schedules (by simp [schedules, hdst]) ?_
    rw [hcost]
    exact ⟨fun hc => ⟨_, branch_completes hf3 hc⟩, branch_refused hf3⟩
  · rw [he]
    have hr : OnlyReads s o.st := hst ▸ onlyReads_readAll (operandCells i) s
    have hcyc := cyclesLeft_of_onlyReads hr
    by_cases ht : isTrigger o.dst
    · refine answers_of_not_schedules (by simp [schedules, hdst, ht]) ?_
      rw [htrig ht, ← hcyc]
      exact dispatch_trigger_outcome ht (by rw [portHolds_of_sameChannels hr.channels, ← hport, hw])
    · have hs : schedules i s := ⟨o.dst, hdst, ht⟩
      rw [Answers, hplain ht, dispatch_plain ht, ← hcyc, ← hcyc]
      by_cases hc : cyclesLeft o.st (nandCost g)
      · by_cases hd : cyclesLeft o.st (nandCost g + Config.params.decayPeriod)
        · exact .inr (.inr ⟨hc, fun _ => hd, _, nandProper_completes hd⟩)
        · exact .inr (.inl ⟨hc, hs, hd, nandProper_refused_deadline hc hd⟩)
      · exact .inl ⟨hc, nandProper_refused_cycle hc⟩

/-- A meaning with the cycles it needs completes, with its effect. -/
theorem exec_completes {i : Instr} {s : State} (hf : fits s i.length) (hw : waits i s = false)
    (hc : cyclesLeft s (cycleCost i s)) (hd : schedules i s → cyclesLeft s (cycleCost i s + Config.params.decayPeriod)) :
    ∃ t, exec i s = .next t ∧ Effect (operandCells i) i s t := by
  rcases exec_answers hf hw with ⟨hn, _⟩ | ⟨_, hs, hn, _⟩ | ⟨_, _, t, ht⟩
  · exact absurd hc hn
  · exact absurd (hd hs) hn
  · rcases exec_cases hf ht with ⟨hw', _⟩ | hdone
    · rw [hw] at hw'
      cases hw'
    · exact ⟨t, ht, hdone.effect hf⟩

/-! ### What a step answers -/

theorem eq_instrAt_of_decode {i : Instr} {s : State} (h : decode (instrBytes s) = .ok (i, [])) : i = instrAt s := by
  rw [decode_instrBytes] at h
  cases h
  rfl

theorem executes_instrAt {s : State} (hrun : s.ctl = .running) (hip : s.ip ≠ Config.params.haltAddr)
    (hf : fits s (instrAt s).length) (hw : waits (instrAt s) s = false) : Executes (instrAt s) s :=
  ⟨hrun, hip, instrAt_length s ▸ hf, decode_instrBytes s, hw⟩

theorem Executes.eq_instrAt {i : Instr} {s : State} (h : Executes i s) : i = instrAt s :=
  eq_instrAt_of_decode h.decodes

theorem Executes.fits_length {i : Instr} {s : State} (h : Executes i s) : Machine.fits s i.length := by
  rw [h.eq_instrAt, instrAt_length]
  exact h.fits

theorem Executes.step_eq {i : Instr} {s : State} (h : Executes i s) :
    step s = exec i (readAll (fetchCells i s) s) := by
  have hw := h.ready
  obtain rfl := h.eq_instrAt
  rw [step_of_fits h.running h.notHalt h.fits, if_neg (by simp [hw])]

/-- What was done after the fetch, told from the state before it. -/
theorem Executes.step_answers {i : Instr} {s : State} (h : Executes i s) : Answers i s (step s) := by
  have hr := onlyReads_readAll (fetchCells i s) s
  have hf : Machine.fits (readAll (fetchCells i s) s) i.length := by
    unfold Machine.fits
    rw [hr.ip]
    exact h.fits_length
  rw [h.step_eq]
  exact answers_of_onlyReads hr (exec_answers hf ((waits_of_onlyReads hr i).trans h.ready))

/-- Everything a step can do (40_fetch_decode R146). -/
inductive StepEffect (s t : State) : Prop where
  | stopped (stop : s.ctl ≠ .running) (eq : t = s)
  | halts (run : s.ctl = .running) (atHalt : s.ip = Config.params.haltAddr) (eq : t = enterHalted s)
  | fetchError (run : s.ctl = .running) (away : s.ip ≠ Config.params.haltAddr) (unfit : ¬ fits s (instrAt s).length)
      (eq : t = raiseFetchError (readAll (fetchCells (instrAt s) s) s) Config.params.fetchLimit)
  | holds (run : s.ctl = .running) (away : s.ip ≠ Config.params.haltAddr) (fit : fits s (instrAt s).length)
      (wait : waits (instrAt s) s = true) (eq : t = s)
  | completes (exec : Executes (instrAt s) s)
      (effect : Effect (fetchCells (instrAt s) s ++ operandCells (instrAt s)) (instrAt s) s t)

theorem step_effect {s t : State} (h : step s = .next t) : StepEffect s t := by
  rcases step_completed h with ⟨hstop, ht⟩ | ⟨hrun, hip, ht⟩ | ⟨hrun, hip, hf, ht⟩ |
    ⟨hrun, hip, hf, ⟨hw, ht⟩ | ⟨hw, hdone⟩⟩
  · exact .stopped hstop ht
  · exact .halts hrun hip ht
  · exact .fetchError hrun hip hf ht
  · exact .holds hrun hip hf hw ht
  · exact .completes (executes_instrAt hrun hip hf hw) (hdone.effect hf)

/-- A step that executes an instruction has that instruction's effect. -/
theorem Executes.effect {i : Instr} {s t : State} (h : Executes i s) (ht : step s = .next t) :
    Effect (fetchCells i s ++ operandCells i) i s t := by
  have hw := h.ready
  have hf := h.fits_length
  obtain rfl := h.eq_instrAt
  cases step_effect ht with
  | stopped stop _ => exact absurd h.running stop
  | halts _ atHalt _ => exact absurd atHalt h.notHalt
  | fetchError _ _ unfit _ => exact absurd hf unfit
  | holds _ _ _ wait _ => rw [hw] at wait; cases wait
  | completes _ effect => exact effect

/-- An executed instruction with the cycles it needs completes, with its effect. -/
theorem Executes.completes {i : Instr} {s : State} (h : Executes i s) (hc : cyclesLeft s (cycleCost i s))
    (hd : schedules i s → cyclesLeft s (cycleCost i s + Config.params.decayPeriod)) :
    ∃ t, step s = .next t ∧ Effect (fetchCells i s ++ operandCells i) i s t := by
  rcases h.step_answers with ⟨hn, _⟩ | ⟨_, hs, hn, _⟩ | ⟨_, _, t, ht⟩
  · exact absurd hc hn
  · exact absurd (hd hs) hn
  · exact ⟨t, ht, h.effect ht⟩

/-- A step that executes no instruction answers a next state: it stops, halts, faults or holds. -/
theorem step_next_of_not_executes {s : State} (h : ¬ ∃ i, Executes i s) : ∃ t, step s = .next t := by
  by_cases hrun : s.ctl = .running
  · by_cases hip : s.ip = Config.params.haltAddr
    · exact ⟨_, step_at_haltAddr hrun hip⟩
    · by_cases hf : fits s (instrLength (logicalValue s s.ip))
      · have hw : waits (instrAt s) s = true := by
          by_contra hw
          exact h ⟨_, hrun, hip, hf, decode_instrBytes s, Bool.eq_false_of_not_eq_true hw⟩
        exact ⟨s, by rw [step_of_fits hrun hip hf, if_pos hw]⟩
      · exact ⟨_, step_of_not_fits hrun hip hf⟩
  · exact ⟨s, step_of_not_running hrun⟩

/-- A refused step executes an instruction, and says which addition would overflow. -/
theorem step_refused {s : State} {r : Refusal} (h : step s = .refused r) : ∃ i, Executes i s ∧
    ((¬ cyclesLeft s (cycleCost i s) ∧ r = .cycleOverflow) ∨
      (cyclesLeft s (cycleCost i s) ∧ schedules i s ∧ ¬ cyclesLeft s (cycleCost i s + Config.params.decayPeriod) ∧
        r = .deadlineOverflow)) := by
  by_cases hex : ∃ i, Executes i s
  · obtain ⟨i, hi⟩ := hex
    refine ⟨i, hi, ?_⟩
    rcases hi.step_answers with ⟨hn, ht⟩ | ⟨hc, hs, hn, ht⟩ | ⟨_, _, t, ht⟩ <;> rw [h] at ht <;> cases ht
    · exact .inl ⟨hn, rfl⟩
    · exact .inr ⟨hc, hs, hn, rfl⟩
  · obtain ⟨t, ht⟩ := step_next_of_not_executes hex
    rw [ht] at h
    cases h

theorem cycleCost_le (i : Instr) (s : State) : cycleCost i s ≤ Config.params.costNandByte := by
  cases i with
  | br | brR => exact Nat.le_of_ble_eq_true rfl
  | nandw | nandwS | nandbit | nandbitS => unfold cycleCost; dsimp only; split <;> decide

end Sys2Proof.Machine

open Sys2Proof Sys2Proof.Machine

/-- Settles O35: the two refusals of an executed instruction (`Executes.step_answers`), which exclude each other, and no other
step is refused (`step_refused`). -/
theorem exactlyCounterOverflowIsRefused : Obligations.ExactlyCounterOverflowIsRefused := by
  intro s
  refine ⟨⟨fun h => ?_, fun ⟨i, hi, hn⟩ => ?_⟩, ⟨fun h => ?_, fun ⟨i, y, hi, hy, hplain, hc, hn⟩ => ?_⟩, fun r h => ?_⟩
  · obtain ⟨i, hi, ⟨hn, _⟩ | ⟨_, _, _, hr⟩⟩ := step_refused h
    · exact ⟨i, hi, hn⟩
    · cases hr
  · rcases hi.step_answers with ⟨_, ht⟩ | ⟨hc, _⟩ | ⟨hc, _⟩
    · exact ht
    · exact absurd hc hn
    · exact absurd hc hn
  · obtain ⟨i, hi, ⟨_, hr⟩ | ⟨hc, ⟨y, hy, hplain⟩, hn, _⟩⟩ := step_refused h
    · cases hr
    · exact ⟨i, y, hi, hy, hplain, hc, hn⟩
  · rcases hi.step_answers with ⟨hn', _⟩ | ⟨_, _, _, ht⟩ | ⟨_, hd, _⟩
    · exact absurd hc hn'
    · exact ht
    · exact absurd (hd ⟨y, hy, hplain⟩) hn
  · obtain ⟨_, _, ⟨_, hr⟩ | ⟨_, _, _, hr⟩⟩ := step_refused h
    · exact .inl hr
    · exact .inr hr

/-- Settles O34: only a step that executes an instruction can be refused, and `COST_NAND_BYTE` bounds every cost. -/
theorem everyStepIsDefinedWhileCyclesAreLeft : Obligations.EveryStepIsDefinedWhileCyclesAreLeft := by
  intro s h
  by_cases hex : ∃ i, Executes i s
  · obtain ⟨i, hi⟩ := hex
    have hle := cycleCost_le i s
    unfold cyclesLeft at h
    obtain ⟨t, ht, _⟩ := hi.completes (by unfold cyclesLeft; omega) (fun _ => by unfold cyclesLeft; omega)
    exact ⟨t, ht⟩
  · exact step_next_of_not_executes hex

/-- Settles O36: a completed instruction adds its cost (`Effect.cycle`), and no other step touches `CYCLE`. -/
theorem cycleGrowsByTheCostOfTheInstruction : Obligations.CycleGrowsByTheCostOfTheInstruction := by
  intro s t h
  cases step_effect h with
  | stopped _ eq => exact .inl ⟨eq ▸ rfl, .inl eq⟩
  | halts _ _ eq => exact .inl ⟨eq ▸ rfl, .inr (by simp [eq])⟩
  | fetchError _ _ _ eq =>
    have hr := onlyReads_readAll (fetchCells (instrAt s) s) s
    exact .inl ⟨eq ▸ hr.cycle, .inr (by simp [eq])⟩
  | holds _ _ _ _ eq => exact .inl ⟨eq ▸ rfl, .inl eq⟩
  | completes exec effect =>
    exact .inr ⟨effect.status.1.trans exec.running, instrAt s, decode_instrBytes s, effect.cycle⟩
end

section
/-! PROOFS. Memory and load: the image in memory (70_reset R250, R251), the canonical form (20_memory R78), the order of reads
(R63, R74) and the raw write (R64). -/

namespace Sys2Proof.Machine

/-! ### Load -/

/-- Bytes stored from `a` on, read back by the distance of the address from `a`; the address space is passed once at most. -/
theorem Memory.read_storeBytes (bytes : List Byte) (a b : Addr) (m : Memory)
    (h : bytes.length ≤ Config.params.memSize) :
    Memory.read (storeBytes bytes a m) b.toNat = bytes.getD (b - a).toNat (Memory.read m b.toNat) := by
  induction bytes generalizing a m with
  | nil => rfl
  | cons v rest ih =>
    rw [List.length_cons, params_memSize] at h
    rw [storeBytes, ih _ _ (by rw [params_memSize]; omega), Memory.read_write]
    simp only [toNat_eq_iff]
    by_cases hba : b = a
    · have hpast : rest.length ≤ (b - (a + 1#16)).toNat := by bv_omega
      have hfirst : (b - a).toNat = 0 := by simp [hba]
      rw [List.getD_eq_default _ _ hpast, if_pos hba, hfirst, List.getD_cons_zero]
    · have hnext : (b - a).toNat = (b - (a + 1#16)).toNat + 1 := by bv_omega
      rw [if_neg hba, hnext, List.getD_cons_succ]

/-- The state an image is loaded into. -/
def loaded (image : List Byte) : State := { State.reset with phys := storeBytes image Config.params.loadBase [] }

theorem loadImage_of_le {image : List Byte} (h : image.length ≤ Config.params.maxImage) :
    loadImage image = some (loaded image) := if_pos h

theorem loadImage_of_gt {image : List Byte} (h : ¬ image.length ≤ Config.params.maxImage) : loadImage image = none :=
  if_neg h

theorem physAt_loaded {image : List Byte} (h : image.length ≤ Config.params.maxImage) (a : Addr) :
    physAt (loaded image) a = image.getD (a - Config.params.loadBase).toNat Config.params.fill :=
  Memory.read_storeBytes image Config.params.loadBase a [] h

/-- Load writes memory only, so that of the invariant nothing but memory's form is to be shown. -/
theorem engineInv_loaded (image : List Byte) : engineInv (loaded image) = true := by
  have hmem : Memory.wf (loaded image).phys = true := Memory.wf_storeBytes image _ Memory.wf_nil
  have htables : tablesCanonical (loaded image) = true := by
    rw [tablesCanonical, hmem]
    rfl
  rw [engineInv, htables]
  rfl

/-! ### Two canonical states that read alike are the same -/

theorem sparseFind_none_above {α : Type} {l : List (Nat × α)} {n k : Nat} (hl : ∀ c ∈ l, c.1 < n) (hk : n ≤ k) :
    sparseFind l k = none := by
  cases hf : sparseFind l k with
  | none => rfl
  | some v =>
    have : k < n := hl _ (mem_of_sparseFind hf)
    omega

theorem Memory.lt_of_mem {m : Memory} (h : Memory.wf m = true) {c : Host.Cell} (hc : c ∈ m) :
    c.1 < Config.params.memSize := by
  simp only [Memory.wf, Bool.and_eq_true, List.all_eq_true, decide_eq_true_eq] at h
  exact (h.2 c hc).1

theorem DecayTable.lt_of_mem {t : DecayTable} (h : DecayTable.wf t = true) {c : Nat × DecayEntry} (hc : c ∈ t) :
    c.1 < Config.params.memSize := by
  simp only [DecayTable.wf, Bool.and_eq_true, List.all_eq_true, decide_eq_true_eq] at h
  exact h.2 c hc

theorem toNat_ofNat_addr {k : Nat} (h : k < Config.params.memSize) : (BitVec.ofNat 16 k).toNat = k :=
  Nat.mod_eq_of_lt h

theorem phys_eq_of_physAt {s t : State} (hs : tablesCanonical s = true) (ht : tablesCanonical t = true)
    (h : ∀ a, physAt s a = physAt t a) : s.phys = t.phys := by
  simp only [tablesCanonical, Bool.and_eq_true] at hs ht
  refine Memory.ext_read hs.1 ht.1 fun k => ?_
  by_cases hk : k < Config.params.memSize
  · have := h (BitVec.ofNat 16 k)
    rwa [physAt, physAt, toNat_ofNat_addr hk] at this
  · rw [Memory.read, Memory.read, sparseFind_none_above (fun c => Memory.lt_of_mem hs.1) (Nat.not_lt.mp hk),
      sparseFind_none_above (fun c => Memory.lt_of_mem ht.1) (Nat.not_lt.mp hk)]

theorem dt_eq_of_entryAt {s t : State} (hs : tablesCanonical s = true) (ht : tablesCanonical t = true)
    (h : ∀ a, entryAt s a = entryAt t a) : s.dt = t.dt := by
  simp only [tablesCanonical, Bool.and_eq_true] at hs ht
  obtain ⟨_, hs⟩ := hs
  obtain ⟨_, ht⟩ := ht
  have hrise : ∀ {d : DecayTable}, DecayTable.wf d = true → risingFrom 0 d = true := fun hd => by
    rw [DecayTable.wf, Bool.and_eq_true] at hd
    exact hd.1
  refine sparse_ext (hrise hs) (hrise ht) fun k => ?_
  by_cases hk : k < Config.params.memSize
  · have := h (BitVec.ofNat 16 k)
    rwa [entryAt, entryAt, toNat_ofNat_addr hk] at this
  · rw [sparseFind_none_above (fun c => DecayTable.lt_of_mem hs) (Nat.not_lt.mp hk),
      sparseFind_none_above (fun c => DecayTable.lt_of_mem ht) (Nat.not_lt.mp hk)]

/-- Two states that reads alone have made from one state differ in memory and table at most. -/
theorem eq_of_onlyReads {s t u : State} (ht : OnlyReads s t) (hu : OnlyReads s u) (hphys : t.phys = u.phys)
    (hdt : t.dt = u.dt) : t = u := by
  obtain ⟨tflag, tcycle, tip, ⟨tctl, tfault⟩, ⟨tinput, tend, tready, tin, tout⟩, _⟩ := ht
  obtain ⟨uflag, ucycle, uip, ⟨uctl, ufault⟩, ⟨uinput, uend, uready, uin, uout⟩, _⟩ := hu
  cases t
  cases u
  simp_all

/-! ### The order and the number of reads do not show (20_memory R63, R74) -/

theorem tablesCanonical_readAll (cells : List Addr) {s : State} (h : tablesCanonical s = true) :
    tablesCanonical (readAll cells s) = true :=
  readAll_induct (P := fun t => tablesCanonical t = true) (fun _ a => tablesCanonical_collapse a) cells h

theorem cell_eq_of_readExactly {l m : List Addr} {s t u : State} {a : Addr} (hlm : a ∈ l ↔ a ∈ m)
    (ht : readExactly l s t a) (hu : readExactly m s u a) : physAt t a = physAt u a ∧ entryAt t a = entryAt u a := by
  by_cases ha : a ∈ l
  · obtain ⟨hp, he⟩ := ht.1 ha
    obtain ⟨hp', he'⟩ := hu.1 (hlm.mp ha)
    exact ⟨hp.trans hp'.symm, he.trans he'.symm⟩
  · obtain ⟨hp, he⟩ := ht.2 ha
    obtain ⟨hp', he'⟩ := hu.2 (mt hlm.mpr ha)
    exact ⟨hp.trans hp'.symm, he.trans he'.symm⟩

/-- The state after reads depends on which cells are read only. -/
theorem readAll_eq_of_mem_iff {l m : List Addr} {s : State} (hs : tablesCanonical s = true)
    (h : ∀ a, a ∈ l ↔ a ∈ m) : readAll l s = readAll m s := by
  have hcell := fun a => cell_eq_of_readExactly (h a) (readExactly_readAll l s a) (readExactly_readAll m s a)
  have hl := tablesCanonical_readAll l hs
  have hm := tablesCanonical_readAll m hs
  exact eq_of_onlyReads (onlyReads_readAll l s) (onlyReads_readAll m s)
    (phys_eq_of_physAt hl hm fun a => (hcell a).1) (dt_eq_of_entryAt hl hm fun a => (hcell a).2)

end Sys2Proof.Machine

open Sys2Proof Sys2Proof.Machine

/-- Settles O2, by the two sides of `MAX_IMAGE`; the cells by `Memory.read_storeBytes`. -/
theorem loadBuildsTheResetStateFromTheImage : Obligations.LoadBuildsTheResetStateFromTheImage := by
  intro image
  constructor
  · intro h
    exact ⟨loaded image, loadImage_of_le h, fun a => ⟨physAt_loaded h a, rfl⟩, rfl, rfl, rfl, rfl, rfl, rfl, rfl, rfl⟩
  · intro h
    have hnone := loadImage_of_gt h
    exact ⟨hnone, by rw [loadStatus, hnone]⟩

/-- Settles O3: the empty image stores nothing. -/
theorem resetIsTheLoadOfTheEmptyImage : Obligations.ResetIsTheLoadOfTheEmptyImage :=
  ⟨loadImage_of_le (Nat.zero_le _), params_fill, fun _ => rfl⟩

/-- Settles O1, by the lemmas that hold each parameter to its default and the word types to their widths. -/
theorem parametersHaveTheirDefaultValues : Obligations.ParametersHaveTheirDefaultValues :=
  ⟨params_addrWidth, params_memSize, params_cycleWidth, addr_width, cycle_width, params_decayPeriod, params_costBr,
    params_costNandByte, params_costNandBit, params_costIo, params_haltAddr, params_fetchLimit, params_inTrig,
    params_outTrig, params_ioCell, params_resetIp, params_loadBase, params_maxImage, params_fill, params_wideSel,
    params_dtCap, params_ptrWrap⟩

/-- Settles O5: what loads is `loaded image`, for which the invariant holds. -/
theorem loadMeetsTheEngineInvariant : Obligations.LoadMeetsTheEngineInvariant := by
  intro image s h
  by_cases hle : image.length ≤ Config.params.maxImage
  · rw [loadImage_of_le hle] at h
    cases h
    exact engineInv_loaded image
  · rw [loadImage_of_gt hle] at h
    cases h

/-- Settles O4: reset is the load of the empty image. -/
theorem resetMeetsTheEngineInvariant : Obligations.ResetMeetsTheEngineInvariant :=
  loadMeetsTheEngineInvariant [] State.reset resetIsTheLoadOfTheEmptyImage.1

/-- Settles O7: the addresses of the entries rise strictly and lie below `MEM_SIZE`. -/
theorem decayTableNeverExceedsItsCapacity : Obligations.DecayTableNeverExceedsItsCapacity := by
  intro s h
  rw [tablesCanonical, Bool.and_eq_true] at h
  have hwf := h.2
  rw [DecayTable.wf, Bool.and_eq_true] at hwf
  exact length_le_of_rising hwf.1 fun c => DecayTable.lt_of_mem h.2

/-- Settles O17: both orders read the same cells (`readAll_eq_of_mem_iff`), and a second read finds the cell settled. -/
theorem orderOfReadsIsNotObservable : Obligations.OrderOfReadsIsNotObservable := by
  intro s a b h
  have hcomm : readAll [a, b] s = readAll [b, a] s := readAll_eq_of_mem_iff h (by simp [or_comm])
  refine ⟨hcomm, ?_, Prod.ext ?_ ?_⟩
  · rw [memRead_value, memRead_value, memRead_state, logicalValue_collapse]
  · rw [memRead_value, memRead_value, memRead_state, logicalValue_collapse]
  · exact collapse_collapse s a

/-- Settles O18, by the update rules of `memWrite`. -/
theorem rawWriteLeavesTheDecayEntry : Obligations.RawWriteLeavesTheDecayEntry := by
  intro s a b v
  refine ⟨?_, fun hb => ?_, entryAt_memWrite s a b v, tablesCanonical_memWrite a v⟩
  · rw [physAt_memWrite, if_pos rfl]
  · rw [physAt_memWrite, if_neg hb]
end

section
/-! PROOFS. The engine invariant is kept by every step, and with it the trigger cells keep their bytes (10_state section 3,
20_memory R76, 42_nand_io R190, 60_exceptions R222). -/

namespace Sys2Proof.Machine

/-! ### The operations keep the form of the tables and the bound on the deadlines -/

theorem tablesCanonical_of_tables_eq {s t : State} (hphys : t.phys = s.phys) (hdt : t.dt = s.dt)
    (h : tablesCanonical s = true) : tablesCanonical t = true := by
  rwa [tablesCanonical, hphys, hdt]

theorem deadlinesBounded_iff (s : State) : deadlinesBounded s = true ↔
    ∀ c ∈ s.dt, c.2.deadline.toNat ≤ s.cycle.toNat + Config.params.decayPeriod := by
  simp [deadlinesBounded]

/-- Time that passes moves no deadline further ahead. -/
theorem deadlinesBounded_of_cycle_le {s t : State} (hdt : t.dt = s.dt) (hc : s.cycle.toNat ≤ t.cycle.toNat)
    (h : deadlinesBounded s = true) : deadlinesBounded t = true := by
  rw [deadlinesBounded_iff] at h ⊢
  intro c hmem
  have := h c (hdt ▸ hmem)
  omega

theorem deadlinesBounded_dropEntry {s : State} (a : Addr) (h : deadlinesBounded s = true) :
    deadlinesBounded (dropEntry s a) = true :=
  all_erase a.toNat h

theorem deadlinesBounded_collapse {s : State} (a : Addr) (h : deadlinesBounded s = true) :
    deadlinesBounded (collapse s a) = true := by
  cases he : entryAt s a with
  | none => rwa [collapse_of_none he]
  | some e =>
    cases hd : isDue e s.cycle with
    | false => rwa [collapse_of_not_due he hd]
    | true =>
      rw [collapse_of_due he hd]
      exact deadlinesBounded_dropEntry a (deadlinesBounded_of_cycle_le (memWrite_dt ..) (Nat.le_refl _) h)

theorem deadlinesBounded_scheduleDecay {s : State} {a : Addr} {d : Cycle} {g : Granularity}
    (hd : d.toNat ≤ s.cycle.toNat + Config.params.decayPeriod) (h : deadlinesBounded s = true) :
    deadlinesBounded (scheduleDecay s a d g) = true :=
  all_insert (decide_eq_true hd) h

/-! ### A step keeps what its operations keep -/

/-- A property that reads, the halt transition, the fetch error and a completed instruction keep is kept by every step. -/
theorem step_keeps {P : State → Prop} (hread : ∀ s a, P s → P (collapse s a)) (hhalt : ∀ s, P s → P (enterHalted s))
    (hfault : ∀ s a, P s → P (raiseFetchError s a))
    (hdone : ∀ cells i s t, Completed cells i s t → P s → P t) {s t : State} (h : step s = .next t) (hs : P s) :
    P t := by
  rcases step_completed h with ⟨_, rfl⟩ | ⟨_, _, rfl⟩ | ⟨_, _, _, rfl⟩ | ⟨_, _, _, ⟨_, rfl⟩ | ⟨_, hc⟩⟩
  · exact hs
  · exact hhalt s hs
  · exact hfault _ _ (readAll_induct hread _ hs)
  · exact hs
  · exact hdone _ _ _ _ hc hs

theorem tablesCanonical_nandNext {g : Granularity} {x y fp : Addr} {s : State} (h : tablesCanonical s = true) :
    tablesCanonical (nandNext g x y fp s) = true := by
  have hwritten := tablesCanonical_memWrite y (nandResult g (logicalValue s x) (logicalValue s y))
    (tablesCanonical_collapse y (tablesCanonical_collapse x h))
  exact tablesCanonical_scheduleDecay y _ g (tablesCanonical_of_tables_eq rfl rfl hwritten)

theorem Completed.tablesCanonical {cells : List Addr} {i : Instr} {s t : State} (h : Completed cells i s t)
    (hs : tablesCanonical s = true) : tablesCanonical t = true := by
  have hr := tablesCanonical_readAll cells hs
  rcases h with ⟨_, _, _, _, _, p, rfl⟩ | ⟨_, _, _, _, b, s1, htake, rfl⟩ | ⟨_, _, _, _, rfl⟩ |
    ⟨g, x, y, _, _, _, _, _, _, rfl⟩
  · exact tablesCanonical_of_tables_eq rfl rfl hr
  · have ht := tookInput_of_takeInput htake
    have hs1 := tablesCanonical_of_tables_eq ht.phys ht.dt hr
    exact tablesCanonical_of_tables_eq rfl rfl (tablesCanonical_memWrite Config.params.ioCell b hs1)
  · exact tablesCanonical_of_tables_eq rfl rfl (tablesCanonical_collapse Config.params.ioCell hr)
  · exact tablesCanonical_nandNext hr

/-- The deadline of a NAND proper is `DECAY_PERIOD` after the incremented `CYCLE` (42_nand_io R190). -/
theorem deadlinesBounded_nandNext {g : Granularity} {x y fp : Addr} {s : State}
    (hc : cyclesLeft s (nandCost g + Config.params.decayPeriod)) (h : deadlinesBounded s = true) :
    deadlinesBounded (nandNext g x y fp s) = true := by
  have hcost : cyclesLeft s (nandCost g) := by
    unfold cyclesLeft at hc ⊢
    omega
  have hcycle := cycle_add_toNat hcost
  have hdeadline := cycle_add_toNat hc
  rw [BitVec.ofNat_add, ← BitVec.add_assoc] at hdeadline
  refine deadlinesBounded_scheduleDecay ?_
    (deadlinesBounded_of_cycle_le (s := collapse (collapse s x) y) rfl ?_
      (deadlinesBounded_collapse y (deadlinesBounded_collapse x h)))
  · rw [hdeadline, retire_cycle, hcycle, Nat.add_assoc]
  · rw [retire_cycle, hcycle, collapse_cycle, collapse_cycle]
    omega

theorem Completed.deadlinesBounded {cells : List Addr} {i : Instr} {s t : State} (h : Completed cells i s t)
    (hs : deadlinesBounded s = true) : deadlinesBounded t = true := by
  have hr := onlyReads_readAll cells s
  have hb : Machine.deadlinesBounded (readAll cells s) = true :=
    readAll_induct (P := fun u => Machine.deadlinesBounded u = true) (fun _ a => deadlinesBounded_collapse a) cells hs
  have hlater : ∀ {n : Nat}, cyclesLeft s n → (readAll cells s).cycle.toNat ≤ (s.cycle + BitVec.ofNat 64 n).toNat := by
    intro n hn
    rw [cycle_add_toNat hn, hr.cycle]
    omega
  rcases h with ⟨_, _, _, _, hc, p, rfl⟩ | ⟨_, _, _, hc, b, s1, htake, rfl⟩ | ⟨_, _, _, hc, rfl⟩ |
    ⟨g, x, y, _, _, _, _, _, hc, rfl⟩
  · exact deadlinesBounded_of_cycle_le (s := readAll cells s) rfl (hlater hc) hb
  · exact deadlinesBounded_of_cycle_le (tookInput_of_takeInput htake).dt (hlater hc) hb
  · exact deadlinesBounded_of_cycle_le (s := collapse (readAll cells s) Config.params.ioCell) rfl
      (by rw [collapse_cycle]; exact hlater hc) (deadlinesBounded_collapse _ hb)
  · exact deadlinesBounded_nandNext ((cyclesLeft_of_onlyReads hr _).mpr hc) hb

theorem step_tablesCanonical {s t : State} (h : step s = .next t) (hs : tablesCanonical s = true) :
    tablesCanonical t = true :=
  step_keeps (P := fun u => tablesCanonical u = true) (fun _ a => tablesCanonical_collapse a) (fun _ hu => hu)
    (fun _ _ hu => hu) (fun _ _ _ _ hdone => hdone.tablesCanonical) h hs

theorem step_deadlinesBounded {s t : State} (h : step s = .next t) (hs : deadlinesBounded s = true) :
    deadlinesBounded t = true :=
  step_keeps (P := fun u => deadlinesBounded u = true) (fun _ a => deadlinesBounded_collapse a) (fun _ hu => hu)
    (fun _ _ hu => hu) (fun _ _ _ _ hdone => hdone.deadlinesBounded) h hs

/-! ### The trigger cells -/

theorem triggersPlain_iff (s : State) : triggersPlain s = true ↔ ∀ a, isTrigger a → entryAt s a = none := by
  simp [triggersPlain, isTrigger, or_imp, forall_and]

/-- No entry comes to stand at a trigger: a NAND proper schedules elsewhere (`step_entryAt_cases`). -/
theorem step_triggersPlain {s t : State} (h : step s = .next t) (hs : triggersPlain s = true) :
    triggersPlain t = true := by
  rw [triggersPlain_iff] at hs ⊢
  intro a ha
  cases he : entryAt t a with
  | none => rfl
  | some e =>
    rcases step_entryAt_cases h he with hold | ⟨_, hplain⟩
    · rw [hs a ha] at hold
      cases hold
    · exact absurd ha hplain

theorem not_isTrigger_ioCell : ¬ isTrigger Config.params.ioCell := by
  unfold isTrigger
  decide

/-- The cell an instruction that fits writes: the I/O cell by an input, the destination of a NAND proper. -/
theorem writtenCell_cases {i : Instr} {s : State} {a : Addr} (h : writtenCell i s = some a) : fits s i.length ∧
    ((a = Config.params.ioCell ∧ destination i s = some Config.params.inTrig) ∨
      (destination i s = some a ∧ ¬ isTrigger a)) := by
  by_cases hf : fits s i.length
  · rw [writtenCell, if_pos hf] at h
    refine ⟨hf, ?_⟩
    cases hdst : destination i s with
    | none => simp [hdst] at h
    | some y =>
      by_cases hin : y = Config.params.inTrig
      · simp only [hdst, if_pos hin, Option.some.injEq] at h
        exact .inl ⟨h.symm, congrArg some hin⟩
      · by_cases hout : y = Config.params.outTrig
        · simp only [hdst, if_neg hin, if_pos hout, reduceCtorEq] at h
        · simp only [hdst, if_neg hin, if_neg hout, Option.some.injEq] at h
          exact .inr (h ▸ ⟨rfl, not_or.mpr ⟨hin, hout⟩⟩)
  · rw [writtenCell, if_neg hf] at h
    cases h

/-- No instruction writes a trigger cell. -/
theorem writtenCell_ne_trigger {i : Instr} {s : State} {a : Addr} (ha : isTrigger a) : writtenCell i s ≠ some a := by
  intro h
  obtain ⟨_, ⟨rfl, _⟩ | ⟨_, hplain⟩⟩ := writtenCell_cases h
  · exact not_isTrigger_ioCell ha
  · exact hplain ha

/-- A cell that no step writes is kept. -/
theorem step_cellKept {s t : State} {a : Addr} (h : step s = .next t) (hw : writtenCell (instrAt s) s ≠ some a) :
    cellKept s t a := by
  cases step_effect h with
  | stopped _ eq => exact eq ▸ cellKept_refl s a
  | halts _ _ eq => exact .inl (eq ▸ ⟨rfl, rfl⟩)
  | fetchError _ _ _ eq => exact eq ▸ (onlyReads_readAll (fetchCells (instrAt s) s) s).cells a
  | holds _ _ _ _ eq => exact eq ▸ cellKept_refl s a
  | completes exec effect => exact cellKept_of_readExactly (effect.readExactly exec.fits_length hw)

theorem physAt_of_cellKept {s t : State} {a : Addr} (h : cellKept s t a) (hn : entryAt s a = none) :
    physAt t a = physAt s a := by
  rcases h with ⟨hp, _⟩ | ⟨e, he, _⟩
  · exact hp
  · rw [hn] at he
    cases he

/-! ### The status registers -/

theorem length_le (i : Instr) : i.length ≤ 5 := by
  cases i <;> simp [Instr.length]

theorem statusConsistent_of_sameStatus {s t : State} (h : sameStatus s t) (hrun : s.ctl = .running)
    (hs : statusConsistent s = true) : statusConsistent t = true := by
  obtain ⟨hctl, hfault⟩ := h
  unfold statusConsistent at hs ⊢
  rw [hctl, hfault]
  simpa only [hrun] using hs

theorem step_statusConsistent {s t : State} (h : step s = .next t) (hs : statusConsistent s = true) :
    statusConsistent t = true := by
  cases step_effect h with
  | stopped _ eq => exact eq ▸ hs
  | halts run atHalt eq =>
    simp only [statusConsistent, run] at hs
    simp [eq, statusConsistent, hs, atHalt]
  | fetchError _ away unfit eq =>
    have hr := onlyReads_readAll (fetchCells (instrAt s) s) s
    have hlen := length_le (instrAt s)
    have hnear : Config.params.fetchLimit.toNat < s.ip.toNat + 5 := by
      unfold fits at unfit
      omega
    simp [eq, statusConsistent, hr.ip, hnear, away]
  | holds _ _ _ _ eq => exact eq ▸ hs
  | completes exec effect => exact statusConsistent_of_sameStatus effect.status exec.running hs

theorem engineInv_iff (s : State) : engineInv s = true ↔
    tablesCanonical s = true ∧ deadlinesBounded s = true ∧ triggersPlain s = true ∧ statusConsistent s = true := by
  simp only [engineInv, Bool.and_eq_true, and_assoc]

theorem step_engineInv {s t : State} (hs : engineInv s = true) (h : step s = .next t) : engineInv t = true := by
  rw [engineInv_iff] at hs ⊢
  obtain ⟨htables, hdeadlines, htriggers, hstatus⟩ := hs
  exact ⟨step_tablesCanonical h htables, step_deadlinesBounded h hdeadlines, step_triggersPlain h htriggers,
    step_statusConsistent h hstatus⟩

/-! ### Runs -/

/-- A run that ends takes its steps one after the other: the induction for what steps keep. -/
theorem run_induct {R : State → State → Prop} (hrefl : ∀ s, R s s)
    (hstep : ∀ s t u, step s = .next t → R t u → R s u) :
    ∀ (n : Nat) (s u : State), Sys2Proof.core.run n s = .next u → R s u := by
  intro n
  induction n with
  | zero =>
    intro s u h
    cases h
    exact hrefl s
  | succ n ih =>
    intro s u h
    cases hs : step s with
    | next t =>
      rw [run_next n hs] at h
      exact hstep s t u hs (ih t u h)
    | fault r => cases r
    | refused r =>
      rw [run_refused n hs] at h
      cases h

/-- What a run keeps of the trigger cells. -/
theorem run_triggers {n : Nat} {s t : State} (hs : engineInv s = true) (h : Sys2Proof.core.run n s = .next t) :
    engineInv t = true ∧ ∀ a, isTrigger a → physAt t a = physAt s a := by
  refine run_induct (R := fun s t => engineInv s = true → engineInv t = true ∧ ∀ a, isTrigger a → physAt t a = physAt s a)
    (fun _ hu => ⟨hu, fun _ _ => rfl⟩) (fun s t u hst ih hinv => ?_) n s t h hs
  obtain ⟨hu, hphys⟩ := ih (step_engineInv hinv hst)
  obtain ⟨_, _, hplain, _⟩ := (engineInv_iff s).mp hinv
  refine ⟨hu, fun a ha => (hphys a ha).trans ?_⟩
  exact physAt_of_cellKept (step_cellKept hst (writtenCell_ne_trigger ha)) ((triggersPlain_iff s).mp hplain a ha)

end Sys2Proof.Machine

open Sys2Proof Sys2Proof.Machine

/-- Settles O6: each of the four parts of the invariant is kept by every step. -/
theorem everyStepKeepsTheEngineInvariant : Obligations.EveryStepKeepsTheEngineInvariant :=
  fun _ _ => step_engineInv

/-- Settles O8, by induction on the run (`run_triggers`); without an entry the logical value is the byte. -/
theorem triggerCellsKeepTheirLoadValues : Obligations.TriggerCellsKeepTheirLoadValues := by
  intro n s t hs h a ha
  obtain ⟨ht, hphys⟩ := run_triggers hs h
  have hnone : ∀ {u : State}, engineInv u = true → entryAt u a = none := fun hu => by
    obtain ⟨_, _, hplain, _⟩ := (engineInv_iff _).mp hu
    exact (triggersPlain_iff _).mp hplain a ha
  refine ⟨hphys a ha, ?_, hnone ht⟩
  rw [logicalValue, logicalValue, logicalAt_of_none _ (hnone ht), logicalAt_of_none _ (hnone hs), hphys a ha]

/-- Settles O30, by induction on the run: a step in a terminal state answers that state. -/
theorem terminalStatesAreFinal : Obligations.TerminalStatesAreFinal := by
  intro n s hstop
  induction n with
  | zero => rfl
  | succ n ih => rw [run_next n (step_of_not_running hstop), ih]
end

section
/-! PROOFS. The step (40_fetch_decode R130 to R146, 60_exceptions R221 to R224): what it runs, which cells it reads (20_memory R61,
R63), which it writes (R67), `FLAG` (10_state R36) and the I/O accesses (R86). -/

namespace Sys2Proof.Machine

/-! ### Every meaning raises the fetch error where it does not fit (60_exceptions R222) -/

theorem branch_of_not_fits {r : Bool} {tgt : Addr} {s : State} (h : ¬ fits s 3) :
    branch r tgt s = .next (raiseFetchError s Config.params.fetchLimit) := by
  rw [branch, fallThrough_of_not_fits h]

theorem nandTwo_of_not_fits {g : Granularity} {rs rd : Bool} {a b : Addr} {s : State} (h : ¬ fits s 5) :
    nandTwo g rs rd a b s = .next (raiseFetchError s Config.params.fetchLimit) := by
  rw [nandTwo, fallThrough_of_not_fits h]

theorem nandOne_of_not_fits {g : Granularity} {rs : Bool} {a : Addr} {s : State} (h : ¬ fits s 3) :
    nandOne g rs a s = .next (raiseFetchError s Config.params.fetchLimit) := by
  rw [nandOne, fallThrough_of_not_fits h]

/-! ### The cells a step reads -/

theorem stepCells_of_fits {i : Instr} {s : State} (h : fits s i.length) :
    stepCells i s = fetchCells i s ++ (operandCells i ++ dataCells i s) := by
  rw [stepCells, if_pos h]

theorem stepCells_of_not_fits {i : Instr} {s : State} (h : ¬ fits s i.length) : stepCells i s = fetchCells i s := by
  rw [stepCells, if_neg h, List.append_nil]

theorem readExactly_stepCells_of_fetchError {s : State} (unfit : ¬ fits s (instrAt s).length) (a : Addr) :
    readExactly (stepCells (instrAt s) s) s
      (raiseFetchError (readAll (fetchCells (instrAt s) s) s) Config.params.fetchLimit) a := by
  rw [stepCells_of_not_fits unfit]
  exact readExactly_readAll _ s a

theorem Effect.readExactly_stepCells {i : Instr} {s t : State} {a : Addr}
    (h : Effect (fetchCells i s ++ operandCells i) i s t) (hf : fits s i.length) (hw : writtenCell i s ≠ some a) :
    Machine.readExactly (stepCells i s) s t a := by
  rw [stepCells_of_fits hf, ← List.append_assoc]
  exact h.readExactly hf hw

/-- Where reads changed a byte, they collapsed a due entry of a cell they read (20_memory R61). -/
theorem collapsed_of_readExactly {cells : List Addr} {s t : State} {a : Addr} (h : readExactly cells s t a)
    (hne : physAt t a ≠ physAt s a) : a ∈ cells ∧
      ∃ e, entryAt s a = some e ∧ e.deadline ≤ s.cycle ∧ physAt t a = decayed e (physAt s a) ∧ entryAt t a = none := by
  refine ⟨by_contra fun hn => hne (h.2 hn).1, ?_⟩
  rcases cellKept_of_readExactly h with ⟨hp, _⟩ | ⟨e, he, hdue, hp, hnone⟩
  · exact absurd hp hne
  · exact ⟨e, he, of_decide_eq_true hdue, hp, hnone⟩

end Sys2Proof.Machine

open Sys2Proof Sys2Proof.Machine

/-- Settles O33, by the constructors: a branch, and the NANDs of two operands and of one. -/
theorem meaningsRaiseTheFetchErrorWhereTheyDoNotFit : Obligations.MeaningsRaiseTheFetchErrorWhereTheyDoNotFit := by
  intro i s h
  cases i with
  | br | brR => exact branch_of_not_fits h
  | nandw | nandbit => exact nandTwo_of_not_fits h
  | nandwS | nandbitS => exact nandOne_of_not_fits h

/-- Settles O28, with `instrAt s` and the state after the reads of its fetch. -/
theorem stepRunsTheDecodedInstruction : Obligations.StepRunsTheDecodedInstruction := by
  intro s hrun hip hf
  have hfetch := fetchInstr_eq hip
  rw [if_pos hf, ← instrAt_length] at hfetch
  have hstep := step_of_fits hrun hip hf
  refine ⟨instrAt s, readAll (fetchCells (instrAt s) s) s, decode_instrBytes s, instrAt_length s, hfetch,
    onlyReads_readAll _ s, readExactly_readAll _ s, fun hw => ?_, fun hw => ?_⟩
  · rw [hstep, if_neg (by simp [hw])]
  · rw [hstep, if_pos hw]

/-- Settles O31: of all that a step away from the halt sentinel does, the fetch error alone leaves RUNNING. -/
theorem fetchErrorExactlyWhenTheInstructionDoesNotFit : Obligations.FetchErrorExactlyWhenTheInstructionDoesNotFit := by
  intro s hrun hip
  constructor
  · rintro ⟨t, ht, hfatal⟩
    rw [← instrAt_length]
    cases step_effect ht with
    | stopped stop _ => exact absurd hrun stop
    | halts _ atHalt _ => exact absurd atHalt hip
    | fetchError _ _ unfit _ => exact unfit
    | holds _ _ _ _ eq => rw [eq, hrun] at hfatal; cases hfatal
    | completes _ effect => rw [effect.status.1, hrun] at hfatal; cases hfatal
  · exact fun hf => ⟨_, step_of_not_fits hrun hip hf, rfl⟩

/-- Settles O32: the error is raised after the reads below the limit, and it writes the status alone. -/
theorem fetchErrorEntersFatalAndKeepsTheRest : Obligations.FetchErrorEntersFatalAndKeepsTheRest := by
  intro s hrun hip hf
  have hr := onlyReads_readAll (fetchCells (instrAt s) s) s
  exact ⟨instrAt s, _, decode_instrBytes s, step_of_not_fits hrun hip hf, rfl, rfl, rfl, rfl, hr.ip, hr.flag, hr.cycle,
    hr.channels, noCellWritten_of_cellKept hr.cells, readExactly_readAll _ s⟩

/-- Settles O40, by what a step can do: the fetch error has read the fetch's cells, a completed instruction those of its operands
and its data besides. -/
theorem everyStepReadsExactlyTheCellsOfItsInstruction : Obligations.EveryStepReadsExactlyTheCellsOfItsInstruction := by
  intro s t h
  refine ⟨fun hstop => ?_, fun hrun hip i hi => ?_⟩
  · cases step_effect h with
    | stopped _ eq => exact eq ▸ ⟨rfl, rfl⟩
    | halts _ _ eq => exact eq ▸ ⟨rfl, rfl⟩
    | fetchError run away _ _ => exact absurd hstop (not_or.mpr ⟨not_not.mpr run, away⟩)
    | holds _ _ _ _ eq => exact eq ▸ ⟨rfl, rfl⟩
    | completes exec _ => exact absurd hstop (not_or.mpr ⟨not_not.mpr exec.running, exec.notHalt⟩)
  · obtain rfl := eq_instrAt_of_decode hi
    cases step_effect h with
    | stopped stop _ => exact absurd hrun stop
    | halts _ atHalt _ => exact absurd atHalt hip
    | fetchError _ _ unfit eq =>
      exact ⟨fun hf => absurd hf unfit, fun _ a _ => eq ▸ readExactly_stepCells_of_fetchError unfit a⟩
    | holds _ _ fit wait eq =>
      exact ⟨fun _ _ => eq, fun hready => absurd (wait.symm.trans (hready fit)) (by decide)⟩
    | completes exec effect =>
      exact ⟨fun _ hw => absurd (hw.symm.trans exec.ready) (by decide),
        fun _ a hw => effect.readExactly_stepCells exec.fits_length hw⟩

/-- Settles O20: a cell that the step does not write shows its reads, and those change a byte by a collapse alone; the cell it
writes is the I/O cell of an input or the destination of a NAND proper (`writtenCell_cases`). -/
theorem exactlyThreeThingsWritePhysicalMemory : Obligations.ExactlyThreeThingsWritePhysicalMemory := by
  refine ⟨fun e s => ?_, fun s t a h hne => ⟨instrAt s, decode_instrBytes s, ?_⟩⟩
  · cases e with
    | supply b => simp only [hostEvent]; split <;> rfl
    | endInput | setReady => rfl
  · cases step_effect h with
    | stopped _ eq => exact absurd (eq ▸ rfl) hne
    | halts _ _ eq => exact absurd (eq ▸ rfl) hne
    | fetchError _ _ unfit eq =>
      exact .inl (collapsed_of_readExactly (eq ▸ readExactly_stepCells_of_fetchError unfit a) hne)
    | holds _ _ _ _ eq => exact absurd (eq ▸ rfl) hne
    | completes exec effect =>
      by_cases hw : writtenCell (instrAt s) s = some a
      · obtain ⟨_, ⟨rfl, hdst⟩ | ⟨hdst, hplain⟩⟩ := writtenCell_cases hw
        · obtain ⟨b, done⟩ := effect.inputDone hdst
          exact .inr (.inr ⟨rfl, hdst, b, done.inHist, done.byte⟩)
        · obtain ⟨g, x, done⟩ := effect.nandDone hdst hplain
          exact .inr (.inl ⟨hdst, hplain, by simp [done.entry]⟩)
      · exact .inl (collapsed_of_readExactly (effect.readExactly_stepCells exec.fits_length hw) hne)

/-- Settles O37, by the effect: a branch keeps `FLAG`, the other three belong to a NAND, and the triggers set it. -/
theorem onlyNandsWriteTheFlag : Obligations.OnlyNandsWriteTheFlag := by
  intro s t h
  refine ⟨fun hne => ?_, fun i y hi hy htrig => ?_⟩
  · cases step_effect h with
    | stopped _ eq => exact absurd (eq ▸ rfl) hne
    | halts _ _ eq => exact absurd (eq ▸ rfl) hne
    | fetchError _ _ _ eq =>
      have hr := onlyReads_readAll (fetchCells (instrAt s) s) s
      exact absurd (eq ▸ hr.flag) hne
    | holds _ _ _ _ eq => exact absurd (eq ▸ rfl) hne
    | completes exec effect =>
      cases effect with
      | branch _ _ _ _ done => exact absurd done.flag hne
      | input _ dst kind _ _ => exact ⟨_, _, exec, kind, dst⟩
      | output dst kind _ _ => exact ⟨_, _, exec, kind, dst⟩
      | nand _ _ _ _ dst kind _ _ _ => exact ⟨_, _, exec, kind, dst⟩
  · rcases htrig with rfl | rfl
    · obtain ⟨b, done⟩ := (hi.effect h).inputDone hy
      exact done.flag
    · exact ((hi.effect h).outputDone hy).flag

/-- Settles O38, by the effect: the read-trigger takes, the write-trigger hands over, and nothing else touches a channel. -/
theorem eachStepMakesAtMostOneIoAccess : Obligations.EachStepMakesAtMostOneIoAccess := by
  intro s t h
  cases step_effect h with
  | stopped _ eq => exact .inl (eq ▸ ⟨rfl, rfl, rfl, .inl rfl⟩)
  | halts _ _ eq => exact .inl (eq ▸ ⟨rfl, rfl, rfl, .inr (.inl (by simp))⟩)
  | fetchError _ _ _ eq =>
    obtain ⟨hinput, _, _, hin, hout⟩ := (onlyReads_readAll (fetchCells (instrAt s) s) s).channels
    subst eq
    exact .inl ⟨hinput, hin, hout, .inr (.inl (by simp))⟩
  | holds _ _ _ _ eq => exact .inl (eq ▸ ⟨rfl, rfl, rfl, .inl rfl⟩)
  | completes _ effect =>
    have hi := decode_instrBytes s
    cases effect with
    | branch dst _ _ _ done =>
      obtain ⟨hinput, _, _, hin, hout⟩ := done.channels
      exact .inl ⟨hinput, hin, hout, .inr (.inr ⟨_, hi, by simp [dst], by simp [dst]⟩)⟩
    | input b dst _ _ done =>
      refine .inr (.inl ⟨_, b, hi, dst, done.outHist, done.inHist, ?_⟩)
      exact done.input.imp_right fun ⟨hempty, hempty', hend, _⟩ => ⟨hempty, hempty', hend⟩
    | output dst _ _ done => exact .inr (.inr ⟨_, hi, dst, done.input, done.inHist, done.outHist⟩)
    | nand g x y _ dst _ plain _ done =>
      obtain ⟨hinput, _, _, hin, hout⟩ := done.channels
      obtain ⟨hnin, hnout⟩ := not_or.mp plain
      exact .inl ⟨hinput, hin, hout, .inr (.inr ⟨_, hi, by simp [dst, hnin], by simp [dst, hnout]⟩)⟩
end

section
/-! PROOFS. Which due entries have been collapsed is not observable (10_state R41, 20_memory R66, R73): every operation but an input
takes logically equal states to logically equal states. -/

namespace Sys2Proof.Machine

/-! ### Logical equality is an equivalence, and reads stay inside it -/

theorem logicallyEqual_symm {s t : State} (h : logicallyEqual s t) : logicallyEqual t s := by
  obtain ⟨hflag, hcycle, hip, ⟨hctl, hfault⟩, ⟨hinput, hend, hready, hin, hout⟩, hcells⟩ := h
  exact ⟨hflag.symm, hcycle.symm, hip.symm, ⟨hctl.symm, hfault.symm⟩,
    ⟨hinput.symm, hend.symm, hready.symm, hin.symm, hout.symm⟩, fun a c hc => (hcells a c (hcycle ▸ hc)).symm⟩

theorem logicallyEqual_trans {s t u : State} (h : logicallyEqual s t) (h' : logicallyEqual t u) : logicallyEqual s u := by
  obtain ⟨hflag, hcycle, hip, hstatus, hchannels, hcells⟩ := h
  obtain ⟨hflag', hcycle', hip', hstatus', hchannels', hcells'⟩ := h'
  exact ⟨hflag'.trans hflag, hcycle'.trans hcycle, hip'.trans hip, sameStatus_trans hstatus hstatus',
    sameChannels_trans hchannels hchannels', fun a c hc => (hcells' a c (hcycle ▸ hc)).trans (hcells a c hc)⟩

theorem logicallyEqual_of_onlyReads {s t : State} (h : OnlyReads s t) : logicallyEqual s t :=
  ⟨h.flag, h.cycle, h.ip, h.status, h.channels, fun a => readsAsBefore_of_cellKept (h.cells a)⟩

/-- Reads after logically equal states, the same or others, leave logically equal states. -/
theorem logicallyEqual_reads {s s' t t' : State} (h : logicallyEqual s s') (ht : OnlyReads s t) (ht' : OnlyReads s' t') :
    logicallyEqual t t' :=
  logicallyEqual_trans (logicallyEqual_symm (logicallyEqual_of_onlyReads ht))
    (logicallyEqual_trans h (logicallyEqual_of_onlyReads ht'))

theorem logicallyEqual.flag {s t : State} (h : logicallyEqual s t) : t.flag = s.flag := h.1
theorem logicallyEqual.cycle {s t : State} (h : logicallyEqual s t) : t.cycle = s.cycle := h.2.1
theorem logicallyEqual.ip {s t : State} (h : logicallyEqual s t) : t.ip = s.ip := h.2.2.1
theorem logicallyEqual.status {s t : State} (h : logicallyEqual s t) : sameStatus s t := h.2.2.2.1
theorem logicallyEqual.channels {s t : State} (h : logicallyEqual s t) : sameChannels s t := h.2.2.2.2.1
theorem logicallyEqual.cells {s t : State} (h : logicallyEqual s t) (a : Addr) : readsAsBefore s t a := h.2.2.2.2.2 a

/-! ### What is told from logical values is the same -/

section Observed

variable {s s' : State}

theorem logicalValue_of_logicallyEqual (h : logicallyEqual s s') (a : Addr) : logicalValue s' a = logicalValue s a := by
  rw [logicalValue, h.cycle, h.cells a s.cycle (BitVec.le_refl _), logicalValue]

theorem effective_of_logicallyEqual (h : logicallyEqual s s') (r : Bool) (a : Addr) :
    effective s' r a = effective s r a := by
  simp only [effective, pointerAt, logicalValue_of_logicallyEqual h]

theorem instrAt_of_logicallyEqual (h : logicallyEqual s s') : instrAt s' = instrAt s := by
  simp only [instrAt, h.ip, logicalValue_of_logicallyEqual h]

theorem waits_of_logicallyEqual (h : logicallyEqual s s') (i : Instr) : waits i s' = waits i s := by
  cases i <;> simp only [waits, operandsTwo_dst, operandsOne_dst, effective_of_logicallyEqual h,
    portHolds_of_sameChannels h.channels]

theorem fits_of_logicallyEqual (h : logicallyEqual s s') (len : Nat) : fits s' len ↔ fits s len := by
  rw [fits, fits, h.ip]

theorem cyclesLeft_of_logicallyEqual (h : logicallyEqual s s') (n : Nat) : cyclesLeft s' n ↔ cyclesLeft s n := by
  rw [cyclesLeft, cyclesLeft, h.cycle]

/-! ### The updates that keep logical equality -/

theorem logicallyEqual_enterHalted (h : logicallyEqual s s') : logicallyEqual (enterHalted s) (enterHalted s') := by
  obtain ⟨hflag, hcycle, hip, ⟨_, hfault⟩, hchannels, hcells⟩ := h
  exact ⟨hflag, hcycle, hip, ⟨rfl, hfault⟩, hchannels, hcells⟩

theorem logicallyEqual_raiseFetchError (h : logicallyEqual s s') (a : Addr) :
    logicallyEqual (raiseFetchError s a) (raiseFetchError s' a) := by
  obtain ⟨hflag, hcycle, hip, _, hchannels, hcells⟩ := h
  exact ⟨hflag, hcycle, hip, ⟨rfl, rfl⟩, hchannels, hcells⟩

theorem logicallyEqual_setFlag (h : logicallyEqual s s') (f : Bool) : logicallyEqual (setFlag s f) (setFlag s' f) := by
  obtain ⟨_, hcycle, hip, hstatus, hchannels, hcells⟩ := h
  exact ⟨rfl, hcycle, hip, hstatus, hchannels, hcells⟩

theorem logicallyEqual_emitByte (h : logicallyEqual s s') (b : Byte) :
    logicallyEqual (emitByte s b) (emitByte s' b) := by
  obtain ⟨hflag, hcycle, hip, hstatus, ⟨hinput, hend, hready, hin, hout⟩, hcells⟩ := h
  exact ⟨hflag, hcycle, hip, hstatus, ⟨hinput, hend, hready, hin, congrArg (· ++ [b]) hout⟩, hcells⟩

/-- Time passes forwards only, so that what reads alike now still does at the end of an instruction. -/
theorem logicallyEqual_retire (h : logicallyEqual s s') (p : Addr) {n : Nat} (hc : cyclesLeft s n) :
    logicallyEqual (retire s p (s.cycle + BitVec.ofNat 64 n)) (retire s' p (s'.cycle + BitVec.ofNat 64 n)) := by
  obtain ⟨hflag, hcycle, _, hstatus, hchannels, hcells⟩ := h
  have hle : s.cycle ≤ s.cycle + BitVec.ofNat 64 n := by
    rw [BitVec.le_def, cycle_add_toNat hc]
    omega
  rw [hcycle]
  exact ⟨hflag, rfl, rfl, hstatus, hchannels, fun a c hlater => hcells a c (BitVec.le_trans hle hlater)⟩

/-- The destination of a NAND proper gets its byte and its entry from logical values; any other cell is kept on both sides. -/
theorem logicallyEqual_nandNext (h : logicallyEqual s s') (g : Granularity) (x y fp : Addr)
    (hc : cyclesLeft s (nandCost g)) : logicallyEqual (nandNext g x y fp s) (nandNext g x y fp s') := by
  have hvalue := logicalValue_of_logicallyEqual h
  obtain ⟨hflag, hcycle, hip, ⟨hctl, hfault⟩, ⟨hinput, hend, hready, hin, hout⟩, hcells⟩ := h
  refine ⟨?_, ?_, rfl, by simp [nandNext, sameStatus, hctl, hfault],
    by simp [nandNext, sameChannels, hinput, hend, hready, hin, hout], fun a c hlater => ?_⟩
  · rw [nandNext_flag, nandNext_flag, hvalue, hvalue]
  · rw [nandNext_cycle, nandNext_cycle, hcycle]
  · by_cases hay : a = y
    · subst hay
      rw [logicalAt, logicalAt, nandNext_entryAt, nandNext_entryAt, nandNext_physAt, nandNext_physAt, hvalue, hvalue,
        hcycle]
    · have hle : s.cycle ≤ c := by
        rw [nandNext_cycle, BitVec.le_def, cycle_add_toNat hc] at hlater
        rw [BitVec.le_def]
        omega
      have hkept := readsAsBefore_of_cellKept (nandNext_cellKept g x y fp s hay) c hle
      have hkept' := readsAsBefore_of_cellKept (nandNext_cellKept g x y fp s' hay) c (hcycle ▸ hle)
      rw [hkept, hkept', hcells a c hle]

/-! ### Meanings and steps -/

theorem branch_respects (h : logicallyEqual s s') {r : Bool} {tgt : Addr} {t : State} (ht : branch r tgt s = .next t) :
    ∃ t', branch r tgt s' = .next t' ∧ logicallyEqual t t' := by
  rcases branch_cases ht with ⟨hunfit, rfl⟩ | ⟨hfit, hc, rfl⟩
  · exact ⟨_, branch_of_not_fits (mt (fits_of_logicallyEqual h 3).mp hunfit), logicallyEqual_raiseFetchError h _⟩
  · refine ⟨_, branch_completes ((fits_of_logicallyEqual h 3).mpr hfit) ((cyclesLeft_of_logicallyEqual h _).mpr hc), ?_⟩
    have hr := onlyReads_resolve s r tgt
    have hr' := onlyReads_resolve s' r tgt
    have htarget : (if s'.flag then (resolve s' r tgt).1 else s'.ip + 3#16) =
        if s.flag then (resolve s r tgt).1 else s.ip + 3#16 := by
      rw [resolve_value, resolve_value, effective_of_logicallyEqual h, h.flag, h.ip]
    have hdone := logicallyEqual_retire (logicallyEqual_reads h hr hr')
      (if s.flag then (resolve s r tgt).1 else s.ip + 3#16) ((cyclesLeft_of_onlyReads hr _).mpr hc)
    rw [hr.cycle, hr'.cycle] at hdone
    rwa [htarget]

/-- What a NAND does with operands resolved alike in logically equal states, unless it takes an input. -/
theorem dispatch_respects (h : logicallyEqual s s') {g : Granularity} {fp : Addr} {o o' : Operands} {t : State}
    (hsrc : o'.src = o.src) (hdst : o'.dst = o.dst) (hst : logicallyEqual o.st o'.st)
    (hin : o.dst ≠ Config.params.inTrig) (ht : dispatch g fp s o = .next t) :
    ∃ t', dispatch g fp s' o' = .next t' ∧ logicallyEqual t t' := by
  have hcyc := cyclesLeft_of_logicallyEqual hst
  rcases dispatch_cases ht with ⟨hhold, rfl⟩ | ⟨hin', _⟩ | ⟨hout, hready, hc, rfl⟩ | ⟨hplain, hc, rfl⟩
  · refine ⟨s', dispatch_holds ?_, h⟩
    rw [hdst, portHolds_of_sameChannels hst.channels, hhold]
  · exact absurd hin' hin
  · have hready' : o'.st.outReady = true := by
      obtain ⟨_, _, hsame, _, _⟩ := hst.channels
      rw [hsame, hready]
    rw [dispatch_outTrig (hdst.trans hout), outTrigger_completes hready' ((hcyc _).mpr hc),
      logicalValue_of_logicallyEqual hst]
    have hread := logicallyEqual_reads hst (onlyReads_collapse _ Config.params.ioCell)
      (onlyReads_collapse _ Config.params.ioCell)
    have hc' := (cyclesLeft_of_onlyReads (onlyReads_collapse o.st Config.params.ioCell) _).mpr hc
    have hdone := logicallyEqual_retire
      (logicallyEqual_setFlag (logicallyEqual_emitByte hread (logicalValue o.st Config.params.ioCell)) ioFlag) fp hc'
    simp only [setFlag_cycle, emitByte_cycle, collapse_cycle] at hdone
    exact ⟨_, rfl, hdone⟩
  · rw [dispatch_plain (hdst ▸ hplain), nandProper_completes ((hcyc _).mpr hc), hsrc, hdst]
    refine ⟨_, rfl, logicallyEqual_nandNext hst g _ _ fp ?_⟩
    unfold cyclesLeft at hc ⊢
    omega

theorem nandTwo_of_fits {g : Granularity} {rs rd : Bool} {a b : Addr} {s : State} (h : fits s 5) :
    nandTwo g rs rd a b s = dispatch g (s.ip + BitVec.ofNat 16 5) s (operandsTwo s rs rd a b) := by
  rw [nandTwo, fallThrough_of_fits h]

theorem nandOne_of_fits {g : Granularity} {rs : Bool} {a : Addr} {s : State} (h : fits s 3) :
    nandOne g rs a s = dispatch g (s.ip + BitVec.ofNat 16 3) s (operandsOne s rs a) := by
  rw [nandOne, fallThrough_of_fits h]

theorem nandTwo_respects (h : logicallyEqual s s') {g : Granularity} {rs rd : Bool} {a b : Addr} {t : State}
    (hin : (operandsTwo s rs rd a b).dst ≠ Config.params.inTrig) (ht : nandTwo g rs rd a b s = .next t) :
    ∃ t', nandTwo g rs rd a b s' = .next t' ∧ logicallyEqual t t' := by
  by_cases hf : fits s 5
  · have hf' := (fits_of_logicallyEqual h 5).mpr hf
    rw [nandTwo_of_fits hf] at ht
    rw [nandTwo_of_fits hf', h.ip]
    refine dispatch_respects h ?_ ?_ ?_ hin ht
    · simp only [operandsTwo_src, effective_of_logicallyEqual h]
    · simp only [operandsTwo_dst, effective_of_logicallyEqual h]
    · exact logicallyEqual_reads h (onlyReads_operandsTwo s rs rd a b) (onlyReads_operandsTwo s' rs rd a b)
  · rw [nandTwo_of_not_fits hf] at ht
    cases ht
    exact ⟨_, nandTwo_of_not_fits (mt (fits_of_logicallyEqual h 5).mp hf), logicallyEqual_raiseFetchError h _⟩

theorem nandOne_respects (h : logicallyEqual s s') {g : Granularity} {rs : Bool} {a : Addr} {t : State}
    (hin : (operandsOne s rs a).dst ≠ Config.params.inTrig) (ht : nandOne g rs a s = .next t) :
    ∃ t', nandOne g rs a s' = .next t' ∧ logicallyEqual t t' := by
  by_cases hf : fits s 3
  · have hf' := (fits_of_logicallyEqual h 3).mpr hf
    rw [nandOne_of_fits hf] at ht
    rw [nandOne_of_fits hf', h.ip]
    refine dispatch_respects h ?_ ?_ ?_ hin ht
    · simp only [operandsOne_src, effective_of_logicallyEqual h]
    · simp only [operandsOne_dst, effective_of_logicallyEqual h]
    · exact logicallyEqual_reads h (onlyReads_operandsOne s rs a) (onlyReads_operandsOne s' rs a)
  · rw [nandOne_of_not_fits hf] at ht
    cases ht
    exact ⟨_, nandOne_of_not_fits (mt (fits_of_logicallyEqual h 3).mp hf), logicallyEqual_raiseFetchError h _⟩

theorem exec_respects (h : logicallyEqual s s') {i : Instr} {t : State}
    (hin : destination i s ≠ some Config.params.inTrig) (ht : exec i s = .next t) :
    ∃ t', exec i s' = .next t' ∧ logicallyEqual t t' := by
  cases i with
  | br | brR => exact branch_respects h ht
  | nandw | nandbit => exact nandTwo_respects h (fun hdst => hin (congrArg some hdst)) ht
  | nandwS | nandbitS => exact nandOne_respects h (fun hdst => hin (congrArg some hdst)) ht

theorem step_respects (h : logicallyEqual s s') {t : State}
    (hin : destination (instrAt s) s ≠ some Config.params.inTrig) (ht : step s = .next t) :
    ∃ t', step s' = .next t' ∧ logicallyEqual t t' := by
  have hctl : s'.ctl = s.ctl := h.status.1
  have hinstr := instrAt_of_logicallyEqual h
  have hr := onlyReads_readAll (fetchCells (instrAt s) s) s
  have hfetched := logicallyEqual_reads h hr (onlyReads_readAll (fetchCells (instrAt s') s') s')
  by_cases hrun : s.ctl = .running
  · have hrun' := hctl.trans hrun
    by_cases hip : s.ip = Config.params.haltAddr
    · rw [step_at_haltAddr hrun hip] at ht
      cases ht
      exact ⟨_, step_at_haltAddr hrun' (h.ip.trans hip), logicallyEqual_enterHalted h⟩
    · have hip' : s'.ip ≠ Config.params.haltAddr := h.ip.symm ▸ hip
      have hlen : instrLength (logicalValue s' s'.ip) = instrLength (logicalValue s s.ip) := by
        rw [← instrAt_length, ← instrAt_length, hinstr]
      by_cases hf : fits s (instrLength (logicalValue s s.ip))
      · rw [step_of_fits hrun hip hf] at ht
        rw [step_of_fits hrun' hip' (hlen ▸ (fits_of_logicallyEqual h _).mpr hf), hinstr, waits_of_logicallyEqual h]
        rw [hinstr] at hfetched
        by_cases hw : waits (instrAt s) s = true
        · rw [if_pos hw] at ht ⊢
          cases ht
          exact ⟨s', rfl, h⟩
        · rw [if_neg hw] at ht ⊢
          exact exec_respects hfetched (fun hdst => hin ((destination_of_onlyReads hr _).symm.trans hdst)) ht
      · rw [step_of_not_fits hrun hip hf] at ht
        cases ht
        exact ⟨_, step_of_not_fits hrun' hip' (hlen ▸ mt (fits_of_logicallyEqual h _).mp hf),
          logicallyEqual_raiseFetchError hfetched _⟩
  · rw [step_of_not_running hrun] at ht
    cases ht
    exact ⟨s', step_of_not_running (hctl ▸ hrun), h⟩

end Observed

end Sys2Proof.Machine

open Sys2Proof Sys2Proof.Machine

/-- Settles O39: the instruction at `IP` is `instrAt s`, and each stage of its step respects logical equality. -/
theorem stepsRespectLogicalEquality : Obligations.StepsRespectLogicalEquality :=
  fun s _ _ h hin ht => step_respects h (hin (instrAt s) (decode_instrBytes s)) ht
end

section
/-! PROOFS. Operands and instructions (40_fetch_decode R135, 41_branch R160 and R161, 42_nand_io R180 and R186 to R191), and decay as
a program sees it (70_reset R254, R256). -/

namespace Sys2Proof.Machine

/-! ### The NAND proper, by the form of its operands -/

theorem nandTwo_completes {g : Granularity} {rs rd : Bool} {a b : Addr} {s : State} (hf : fits s 5)
    (hc : cyclesLeft s (nandCost g + Config.params.decayPeriod)) (hplain : ¬ isTrigger (operandsTwo s rs rd a b).dst) :
    ∃ t, nandTwo g rs rd a b s = .next t ∧ NandDone (pointerCells rs a ++ pointerCells rd b) g
      (operandsTwo s rs rd a b).src (operandsTwo s rs rd a b).dst 5 s t := by
  have hr := onlyReads_operandsTwo s rs rd a b
  refine ⟨_, ?_, nandDone_nandNext hf hc⟩
  rw [nandTwo_of_fits hf, dispatch_plain hplain, nandProper_completes ((cyclesLeft_of_onlyReads hr _).mpr hc),
    operandsTwo_st]

theorem nandOne_completes {g : Granularity} {rs : Bool} {a : Addr} {s : State} (hf : fits s 3)
    (hc : cyclesLeft s (nandCost g + Config.params.decayPeriod)) (hplain : ¬ isTrigger (operandsOne s rs a).dst) :
    ∃ t, nandOne g rs a s = .next t ∧ NandDone (pointerCells rs a) g
      (operandsOne s rs a).dst (operandsOne s rs a).dst 3 s t := by
  have hr := onlyReads_operandsOne s rs a
  have hsame : (operandsOne s rs a).src = (operandsOne s rs a).dst := rfl
  refine ⟨_, ?_, nandDone_nandNext hf hc⟩
  rw [nandOne_of_fits hf, dispatch_plain hplain, nandProper_completes ((cyclesLeft_of_onlyReads hr _).mpr hc), hsame,
    operandsOne_st]

/-- A NAND proper of a cell with itself in its two forms, in either width: the two states differ in `IP` alone. -/
theorem nandTwo_self {g : Granularity} {a : Addr} {s t : State} (hf : fits s 5) (hplain : ¬ isTrigger a)
    (h : nandTwo g false false a a s = .next t) :
    ∃ u, nandOne g false a s = .next u ∧ t = { u with ip := s.ip + 5#16 } := by
  have hf3 : fits s 3 := by
    unfold fits at hf ⊢
    omega
  rw [nandTwo_of_fits hf, dispatch_plain hplain] at h
  obtain ⟨hc, rfl⟩ := nandProper_cases h
  refine ⟨nandNext g a a (s.ip + BitVec.ofNat 16 3) s, ?_, rfl⟩
  rw [nandOne_of_fits hf3, dispatch_plain hplain]
  exact nandProper_completes hc

/-! ### The result and `FLAG` of each width (42_nand_io R186, R188) -/

theorem nandByteResult_eq_zero_iff (x y : Byte) : nandByteResult x y = 0x00#8 ↔ x = 0xFF#8 ∧ y = 0xFF#8 := by
  have hones : 0xFF#8 = BitVec.allOnes 8 := rfl
  rw [nandByteResult, hones, ← BitVec.and_eq_allOnes_iff, BitVec.not_eq_comm]
  rfl

theorem getLsbD_resultBit_shifted (i : BitIndex) (r : Bool) {j : Nat} (hj : j < 8) :
    ((BitVec.ofBool r).setWidth 8 <<< i.toNat).getLsbD j = (r && decide (j = i.toNat)) := by
  rw [BitVec.getLsbD_shiftLeft, BitVec.getLsbD_setWidth, BitVec.getLsbD_ofBool]
  grind

/-- The mask of the result is the one a `Bit(i)` entry decays with. -/
theorem nandBitResult_eq_decayed_or (i : BitIndex) (x y : Byte) : nandBitResult i x y =
    decayed ⟨0#64, .bit i⟩ y ||| ((BitVec.ofBool (nandResultBit i x y)).setWidth 8 <<< i.toNat) := rfl

theorem getLsbD_nandBitResult (i : BitIndex) (x y : Byte) {j : Nat} (hj : j < 8) :
    (nandBitResult i x y).getLsbD j =
      if j = i.toNat then !(x.getLsbD j && y.getLsbD j) else y.getLsbD j := by
  rw [nandBitResult_eq_decayed_or, BitVec.getLsbD_or, getLsbD_decayed_bit rfl y hj, getLsbD_resultBit_shifted i _ hj]
  by_cases hji : j = i.toNat
  · simp [hji, nandResultBit]
  · simp [hji]

theorem NandDone.onlyCellWritten {cells : List Addr} {g : Granularity} {x y : Addr} {len : Nat} {s t : State}
    (h : NandDone cells g x y len s t) : onlyCellWritten y s t :=
  fun a ha => kept_of_readExactly (h.others a ha)

theorem NandDone.wholeByteDone {cells : List Addr} {x y : Addr} {len : Nat} {s t : State}
    (h : NandDone cells .byte x y len s t) : wholeByteDone cells s x y len t := by
  refine ⟨h.byte, h.entry, ?_, h.cycle, h.ip, h.status, h.channels, h.onlyCellWritten, h.others⟩
  rw [h.flag, ← nandByteResult_eq_zero_iff]
  exact bne_iff_ne

theorem NandDone.singleBitDone {cells : List Addr} {idx : BitIndex} {x y : Addr} {len : Nat} {s t : State}
    (h : NandDone cells (.bit idx) x y len s t) : singleBitDone cells idx s x y len t := by
  refine ⟨fun j hj => ?_, h.entry, h.flag, h.cycle, h.ip, h.status, h.channels, h.onlyCellWritten, h.others⟩
  rw [h.byte]
  exact getLsbD_nandBitResult idx _ _ hj

/-! ### What is read of a written cell (70_reset R254) -/

/-- Before the deadline of a NAND proper, counted from the cycle it starts at, its byte reads as written. -/
theorem NandDone.logicalAt_before {cells : List Addr} {g : Granularity} {x y : Addr} {len : Nat} {s t : State}
    (h : NandDone cells g x y len s t) (hc : cyclesLeft s (nandCost g + Config.params.decayPeriod)) {c : Cycle}
    (hlt : c.toNat < s.cycle.toNat + (nandCost g + Config.params.decayPeriod)) : logicalAt t c y = physAt t y :=
  logicalAt_of_not_due h.entry ((isDue_eq_false_iff _ c).mpr ((cycle_add_toNat hc).symm ▸ hlt))

/-- From the deadline on it reads decayed. -/
theorem NandDone.logicalAt_after {cells : List Addr} {g : Granularity} {x y : Addr} {len : Nat} {s t : State}
    (h : NandDone cells g x y len s t) (hc : cyclesLeft s (nandCost g + Config.params.decayPeriod)) {c : Cycle}
    (hle : ¬ c.toNat < s.cycle.toNat + (nandCost g + Config.params.decayPeriod)) :
    ∃ e : DecayEntry, e.gran = g ∧ logicalAt t c y = decayed e (physAt t y) :=
  ⟨_, rfl, logicalAt_of_due h.entry ((isDue_iff _ c).mpr ((cycle_add_toNat hc).symm ▸ Nat.not_lt.mp hle))⟩

end Sys2Proof.Machine

open Sys2Proof Sys2Proof.Machine

/-- Settles O26: a redirection is two logical reads, and their bytes make the pointer. -/
theorem redirectionReadsOnePointer : Obligations.RedirectionReadsOnePointer := by
  intro s a
  refine ⟨rfl, ?_, onlyReads_resolve s true a⟩
  rw [resolve_value]
  exact toNat_addrOfBytes _ _

/-- Settles O27, by the values of the operands and the reads that resolve them. -/
theorem operandsResolveIndependently : Obligations.OperandsResolveIndependently := fun s rs rd a b =>
  ⟨operandsTwo_src s rs rd a b, operandsTwo_dst s rs rd a b, onlyReads_operandsTwo s rs rd a b,
    operandsOne_src s rs a, operandsOne_dst s rs a, onlyReads_operandsOne s rs a⟩

/-- Settles O41: a completed branch whose resolution reads nothing. -/
theorem brJumpsToItsTargetIfTheFlagIsSet : Obligations.BrJumpsToItsTargetIfTheFlagIsSet :=
  fun _ _ _ hf hc => branch_completes hf hc

/-- Settles O42: a completed branch, whose pointer is read whether or not it is taken. -/
theorem brRJumpsThroughThePointerIfTheFlagIsSet : Obligations.BrRJumpsThroughThePointerIfTheFlagIsSet := by
  intro ign target s hf hc
  have hr := onlyReads_resolve s true target
  have hread := readExactly_readAll (pointerCells true target) s
  rw [← resolve_state] at hread
  refine ⟨_, branch_completes hf hc, ?_, cycle_add_toNat hc, hr.flag, rfl, rfl, hr.status, hr.channels,
    noCellWritten_of_cellKept hr.cells, hread⟩
  rw [retire_ip, resolve_value]
  rfl

/-- Settles O45: the whole-byte NAND on the two resolved operands. -/
theorem nandwWritesTheWholeByteNand : Obligations.NandwWritesTheWholeByteNand := by
  intro ign rs rd a b s hf hc hplain
  obtain ⟨t, ht, done⟩ := nandTwo_completes (g := .byte) hf hc hplain
  exact ⟨t, ht, done.wholeByteDone⟩

/-- Settles O46: the whole-byte NAND of the one operand with itself, which is its complement. -/
theorem nandwSComplementsItsOneOperand : Obligations.NandwSComplementsItsOneOperand := by
  intro ign rs ignRd a s hf hc hplain
  obtain ⟨t, ht, done⟩ := nandOne_completes (g := .byte) hf hc hplain
  refine ⟨t, ht, ?_, done.wholeByteDone⟩
  rw [done.byte, nandResult, nandByteResult, BitVec.and_self]

/-- Settles O47: the single-bit NAND on the two resolved operands. -/
theorem nandbitWritesTheSelectedBit : Obligations.NandbitWritesTheSelectedBit := by
  intro idx rs rd a b s hf hc hplain
  obtain ⟨t, ht, done⟩ := nandTwo_completes (g := .bit idx) hf hc hplain
  exact ⟨t, ht, done.singleBitDone⟩

/-- Settles O48: the single-bit NAND of the one operand with itself, which inverts the bit. -/
theorem nandbitSInvertsTheSelectedBit : Obligations.NandbitSInvertsTheSelectedBit := by
  intro idx rs ignRd a s hf hc hplain
  obtain ⟨t, ht, done⟩ := nandOne_completes (g := .bit idx) hf hc hplain
  refine ⟨t, ht, ?_, done.singleBitDone⟩
  rw [done.flag, nandFlag, nandResultBit, Bool.and_self]

/-- Settles O21: the written byte under its `Byte` entry. -/
theorem wholeByteWriteDecaysAfterItsPeriod : Obligations.WholeByteWriteDecaysAfterItsPeriod := by
  intro ign rs rd a b s hf hc hplain
  obtain ⟨t, ht, done⟩ := nandTwo_completes (g := .byte) hf hc hplain
  refine ⟨t, ht, fun c => ?_⟩
  split
  next hlt => exact (done.logicalAt_before hc hlt).trans done.byte
  next hle =>
    obtain ⟨e, hg, he⟩ := done.logicalAt_after hc hle
    rw [he, decayed_byte hg]

/-- Settles O22, bit by bit: the written byte under its `Bit` entry, whose decay clears that bit alone. -/
theorem singleBitWriteDecaysThatBitOnly : Obligations.SingleBitWriteDecaysThatBitOnly := by
  intro idx rs rd a b s hf hc hplain
  obtain ⟨t, ht, done⟩ := nandTwo_completes (g := .bit idx) hf hc hplain
  refine ⟨t, ht, fun c j hj => ?_⟩
  have hwritten : (physAt t (operandsTwo s rs rd a b).dst).getLsbD j = _ :=
    (congrArg (·.getLsbD j) done.byte).trans (getLsbD_nandBitResult idx _ _ hj)
  by_cases hlt : c.toNat < s.cycle.toNat + (Config.params.costNandBit + Config.params.decayPeriod)
  · rw [done.logicalAt_before hc hlt, hwritten, decide_eq_true hlt, Bool.true_and]
  · obtain ⟨e, hg, he⟩ := done.logicalAt_after hc hlt
    rw [he, getLsbD_decayed_bit hg _ hj, hwritten, decide_eq_false hlt, Bool.false_and]
    split <;> rfl

/-- Settles O49, in either width by `nandTwo_self`. -/
theorem nandOfACellWithItselfIsTheSingleOperandForm : Obligations.NandOfACellWithItselfIsTheSingleOperandForm :=
  fun _ _ _ _ _ _ hf hplain => ⟨fun _ => nandTwo_self hf hplain, fun _ => nandTwo_self hf hplain⟩
end

section
/-! PROOFS. The I/O port (42_nand_io R183 to R185), holds (92_eei D15), host events and the debug port (20_memory R87). -/

namespace Sys2Proof.Machine

/-! ### An instruction at a trigger -/

theorem waits_of_destination {i : Instr} {s : State} {y : Addr} (h : destination i s = some y) :
    waits i s = portHolds y s := by
  cases i with
  | br | brR => cases h
  | nandw | nandwS | nandbit | nandbitS => cases h; rfl

theorem cycleCost_of_isTrigger {i : Instr} {s : State} {y : Addr} (h : destination i s = some y) (ht : isTrigger y) :
    cycleCost i s = Config.params.costIo := by
  have hio : destination i s = some Config.params.inTrig ∨ destination i s = some Config.params.outTrig := by
    rcases ht with rfl | rfl
    · exact .inl h
    · exact .inr h
  cases i with
  | br | brR => cases h
  | nandw | nandwS | nandbit | nandbitS => exact if_pos hio

theorem not_schedules_of_isTrigger {i : Instr} {s : State} {y : Addr} (h : destination i s = some y) (ht : isTrigger y) :
    ¬ schedules i s := by
  rintro ⟨z, hz, hplain⟩
  rw [h] at hz
  cases hz
  exact hplain ht

/-- An I/O form that fits and need not hold completes: its cost is `COST_IO` and it has no deadline. -/
theorem exec_trigger_completes {i : Instr} {s : State} {y : Addr} (hdst : destination i s = some y) (ht : isTrigger y)
    (hf : fits s i.length) (hc : cyclesLeft s Config.params.costIo) (hport : portHolds y s = false) :
    ∃ t, exec i s = .next t ∧ Effect (operandCells i) i s t :=
  exec_completes hf ((waits_of_destination hdst).trans hport) ((cycleCost_of_isTrigger hdst ht).symm ▸ hc)
    fun hs => absurd hs (not_schedules_of_isTrigger hdst ht)

/-- The same of a step. -/
theorem Executes.trigger_completes {i : Instr} {s : State} {y : Addr} (h : Executes i s)
    (hdst : destination i s = some y) (ht : isTrigger y) (hc : cyclesLeft s Config.params.costIo) :
    ∃ t, step s = .next t ∧ Effect (fetchCells i s ++ operandCells i) i s t :=
  h.completes ((cycleCost_of_isTrigger hdst ht).symm ▸ hc) fun hs => absurd hs (not_schedules_of_isTrigger hdst ht)

/-! ### When the port holds -/

theorem portHolds_inTrig (s : State) : portHolds Config.params.inTrig s = (takeInput s).isNone := by
  simp [portHolds, inTrig_ne_outTrig]

theorem portHolds_outTrig (s : State) : portHolds Config.params.outTrig s = !s.outReady := by
  simp [portHolds, inTrig_ne_outTrig.symm]

theorem takeInput_end_hold {s : State} (h : s.input = []) (he : s.inputEnd = true) (hmode : Config.eofMode = .hold) :
    takeInput s = none := by
  simp [takeInput, h, he, hmode]

theorem takeInput_end_byte {s : State} {v : Byte} (h : s.input = []) (he : s.inputEnd = true)
    (hmode : Config.eofMode = .byte v) : takeInput s = some (v, { s with inHist := s.inHist ++ [v] }) := by
  simp [takeInput, h, he, hmode]

/-- A meaning that must wait answers the state it started from (92_eei D15). -/
theorem exec_holds {i : Instr} {s : State} (hf : fits s i.length) (hw : waits i s = true) : exec i s = .next s := by
  rcases exec_shape hf with ⟨_, _, _, hnot, _⟩ | ⟨_, g, o, he, hst, _, _, hport, _⟩
  · rw [hw] at hnot
    cases hnot
  · have hr : OnlyReads s o.st := hst ▸ onlyReads_readAll (operandCells i) s
    rw [he, dispatch_holds]
    rw [portHolds_of_sameChannels hr.channels, ← hport, hw]

/-! ### The byte that an input takes -/

theorem InputDone.of_waiting {cells : List Addr} {len : Nat} {b c : Byte} {rest : List Byte} {s t : State}
    (h : InputDone cells len c s t) (hin : s.input = b :: rest) : c = b ∧ t.input = rest := by
  rcases h.input with hcons | ⟨hnil, _⟩
  · rw [hin, List.cons.injEq] at hcons
    exact ⟨hcons.1.symm, hcons.2.symm⟩
  · rw [hin] at hnil
    cases hnil

theorem InputDone.of_end {cells : List Addr} {len : Nat} {v c : Byte} {s t : State} (h : InputDone cells len c s t)
    (hin : s.input = []) (hmode : Config.eofMode = .byte v) : c = v ∧ t.input = [] := by
  rcases h.input with hcons | ⟨_, hempty, _, hmode'⟩
  · rw [hin] at hcons
    cases hcons
  · rw [hmode] at hmode'
    cases hmode'
    exact ⟨rfl, hempty⟩

theorem InputDone.onlyCellWritten {cells : List Addr} {len : Nat} {b : Byte} {s t : State}
    (h : InputDone cells len b s t) : onlyCellWritten Config.params.ioCell s t :=
  fun a ha => kept_of_readExactly (h.others a ha)

/-! ### The fetch never reads the I/O cell but through a redirection -/

theorem mem_cellsFrom {a p : Addr} {n : Nat} (h : a ∈ cellsFrom p n) : ∃ k < n, a = p + BitVec.ofNat 16 k := by
  induction n generalizing p with
  | zero => cases h
  | succ n ih =>
    rcases List.mem_cons.mp h with rfl | h
    · exact ⟨0, by omega, by simp⟩
    · obtain ⟨k, hk, rfl⟩ := ih h
      exact ⟨k + 1, by omega, by bv_omega⟩

theorem mem_operandCells_of_mem_sourcePointerCells {i : Instr} {a : Addr} (h : a ∈ sourcePointerCells i) :
    a ∈ operandCells i := by
  cases i with
  | br | brR | nandwS | nandbitS => cases h
  | nandw | nandbit => exact List.mem_append_left _ h

/-- The bytes of an instruction lie below the fetch limit, and the I/O cell does not. -/
theorem ioCell_not_mem_cellsFrom (s : State) (n : Nat) :
    Config.params.ioCell ∉ cellsFrom s.ip (min n (Config.params.fetchLimit.toNat - s.ip.toNat)) := by
  intro h
  obtain ⟨k, hk, heq⟩ := mem_cellsFrom h
  rw [params_fetchLimit] at hk
  rw [params_ioCell] at heq
  bv_omega

theorem ioCell_mem_fetchCells_append_iff (i : Instr) (s : State) :
    Config.params.ioCell ∈ fetchCells i s ++ operandCells i ↔ Config.params.ioCell ∈ operandCells i := by
  rw [List.mem_append, or_iff_right_of_imp]
  intro h
  have hbytes := ioCell_not_mem_cellsFrom s i.length
  rw [fetchCells, List.mem_append, List.mem_append] at h
  rcases h with (hfirst | hsrc) | hlast
  · exact absurd (List.mem_of_mem_take hfirst) hbytes
  · split at hsrc
    · exact mem_operandCells_of_mem_sourcePointerCells hsrc
    · cases hsrc
  · exact absurd (List.mem_of_mem_drop hlast) hbytes

/-! ### Host events -/

/-- The state with `b` the one byte that waits. -/
def supplied (b : Byte) (s : State) : State := { s with input := [b] }

theorem hostEvent_supply {s : State} (b : Byte) (h : s.inputEnd = false) :
    hostEvent (.supply b) s = { s with input := s.input ++ [b] } := by
  simp [hostEvent, h]

theorem hostEvent_supply_empty {s : State} (b : Byte) (hin : s.input = []) (h : s.inputEnd = false) :
    hostEvent (.supply b) s = supplied b s := by
  rw [hostEvent_supply b h, hin]
  rfl

theorem hostEvent_supply_ended {s : State} (b : Byte) (h : s.inputEnd = true) : hostEvent (.supply b) s = s := by
  simp [hostEvent, h]

/-- Operands are resolved from logical values alone, which no byte on a channel changes. -/
theorem destination_of_logicalValue {s t : State} (h : ∀ a, logicalValue t a = logicalValue s a) (i : Instr) :
    destination i t = destination i s := by
  cases i <;> simp only [destination, operandsTwo_dst, operandsOne_dst, effective, pointerAt, h]

theorem logicalValue_supplied (b : Byte) (s : State) (a : Addr) : logicalValue (supplied b s) a = logicalValue s a := rfl

theorem destination_supplied (b : Byte) (s : State) (i : Instr) : destination i (supplied b s) = destination i s :=
  destination_of_logicalValue (logicalValue_supplied b s) i

theorem instrBytes_supplied (b : Byte) (s : State) : instrBytes (supplied b s) = instrBytes s := by
  have hip : (supplied b s).ip = s.ip := rfl
  simp only [instrBytes, logicalValue_supplied, hip]

theorem takeInput_supplied (b : Byte) (s : State) : (takeInput (supplied b s)).isNone = false := rfl

/-- With the byte supplied that the instruction at `IP` waits for, that instruction executes. -/
theorem executes_supplied {s : State} {i : Instr} (b : Byte) (hrun : s.ctl = .running)
    (hip : s.ip ≠ Config.params.haltAddr) (hf : fits s (instrLength (logicalValue s s.ip)))
    (hi : decode (instrBytes s) = .ok (i, [])) (hdst : destination i s = some Config.params.inTrig) :
    Executes i (supplied b s) where
  running := hrun
  notHalt := hip
  fits := hf
  decodes := (instrBytes_supplied b s).symm ▸ hi
  ready := by
    rw [waits_of_destination ((destination_supplied b s i).trans hdst), portHolds_inTrig, takeInput_supplied]

/-! ### A byte under an entry, due or not -/

theorem logicalAt_of_entry {s : State} {a : Addr} {e : DecayEntry} (h : entryAt s a = some e) (c : Cycle) :
    logicalAt s c a = if e.deadline ≤ c then decayed e (physAt s a) else physAt s a := by
  simp [logicalAt, h, isDue]

end Sys2Proof.Machine

open Sys2Proof Sys2Proof.Machine

/-- Settles O50: the read-trigger with a byte waiting, which is the byte it takes. -/
theorem readTriggerInputsOneByte : Obligations.ReadTriggerInputsOneByte := by
  intro i s b rest hdst hf hc hin
  obtain ⟨t, ht, effect⟩ := exec_trigger_completes hdst (.inl rfl) hf hc
    (by rw [portHolds_inTrig, takeInput_cons hin]; rfl)
  obtain ⟨c, done⟩ := effect.inputDone hdst
  obtain ⟨rfl, hrest⟩ := done.of_waiting hin
  exact ⟨t, ht, done.byte, done.entry, done.flag, done.cycle, done.ip, done.status, hrest, done.inHist, done.inputEnd,
    done.outReady, done.outHist, done.onlyCellWritten, done.others⟩

/-- Settles O51: the write-trigger with the host ready. -/
theorem writeTriggerOutputsTheIoCell : Obligations.WriteTriggerOutputsTheIoCell := by
  intro i s hdst hf hc hready
  obtain ⟨t, ht, effect⟩ := exec_trigger_completes hdst (.inr rfl) hf hc (by rw [portHolds_outTrig, hready]; rfl)
  have done := effect.outputDone hdst
  exact ⟨t, ht, done.outHist, done.flag, done.cycle, done.ip, done.status, done.input, done.inHist, done.inputEnd,
    done.outReady, fun a => kept_of_readExactly (done.cells a), done.cells⟩

/-- Settles O53: with no byte to take, or none accepted, the port holds, and the step waits. -/
theorem holdingOnAChannelLeavesTheState : Obligations.HoldingOnAChannelLeavesTheState := by
  intro s i hrun hip hf hi hchannel
  obtain rfl := eq_instrAt_of_decode hi
  have hw : waits (instrAt s) s = true := by
    rcases hchannel with ⟨hdst, hin, hend⟩ | ⟨hdst, hready⟩
    · rw [waits_of_destination hdst, portHolds_inTrig, takeInput_waiting hin hend]
      rfl
    · rw [waits_of_destination hdst, portHolds_outTrig, hready]
      rfl
  rw [step_of_fits hrun hip hf, if_pos hw]

/-- Settles O55, by the three events. -/
theorem hostEventsTouchOnlyTheChannels : Obligations.HostEventsTouchOnlyTheChannels := by
  intro e s
  cases e with
  | supply b =>
    by_cases hend : s.inputEnd = true
    · exact ⟨s.input, s.inputEnd, s.outReady, hostEvent_supply_ended b hend⟩
    · exact ⟨_, s.inputEnd, s.outReady, hostEvent_supply b (Bool.eq_false_of_not_eq_true hend)⟩
  | endInput => exact ⟨s.input, true, s.outReady, rfl⟩
  | setReady ready => exact ⟨s.input, s.inputEnd, ready, rfl⟩

/-- Settles O56: the port shows fields of the state and a logical value, and a collapse changes none of them. -/
theorem debugPortSeesTheLogicalState : Obligations.DebugPortSeesTheLogicalState := by
  intro s a
  refine ⟨rfl, rfl, rfl, rfl, ?_, ?_, ?_, rfl, fun b => ?_⟩
  · show statusCode s.ctl = 0#2 ↔ _
    cases s.ctl <;> decide
  · show statusCode s.ctl = 1#2 ↔ _
    cases s.ctl <;> decide
  · show statusCode s.ctl = 2#2 ↔ _
    cases s.ctl <;> decide
  · simp only [debugView, memRead_state, logicalValue_collapse, collapse_ip, collapse_flag, collapse_cycle, collapse_ctl]

/-- Settles O52, by the two values of `EOF_MODE`. -/
theorem readTriggerAtEndOfStreamFollowsEofMode : Obligations.ReadTriggerAtEndOfStreamFollowsEofMode := by
  intro i s hdst hf hc hin hend
  refine ⟨fun hmode => ?_, fun v hmode => ?_⟩
  · refine exec_holds hf ?_
    rw [waits_of_destination hdst, portHolds_inTrig, takeInput_end_hold hin hend hmode]
    rfl
  · obtain ⟨t, ht, effect⟩ := exec_trigger_completes hdst (.inl rfl) hf hc
      (by rw [portHolds_inTrig, takeInput_end_byte hin hend hmode]; rfl)
    obtain ⟨c, done⟩ := effect.inputDone hdst
    obtain ⟨rfl, hempty⟩ := done.of_end hin hmode
    exact ⟨t, ht, done.byte, done.flag, done.inHist, hempty, done.cycle, done.ip, done.status,
      done.inputEnd.trans hend, done.outReady, done.outHist, done.onlyCellWritten, done.others⟩

/-- Settles O23: the step reads the I/O cell only where a redirection does, and its input leaves the entry that reads left. -/
theorem inputOntoADueEntryReadsDecayed : Obligations.InputOntoADueEntryReadsDecayed := by
  intro i s b rest e hi hdst hc hin he
  obtain ⟨t, ht, effect⟩ := hi.trigger_completes hdst (.inl rfl) hc
  obtain ⟨c, done⟩ := effect.inputDone hdst
  obtain ⟨rfl, _⟩ := done.of_waiting hin
  have hentry := done.entry
  simp only [ioCell_mem_fetchCells_append_iff, he] at hentry
  refine ⟨t, ht, done.byte, fun hkept => ?_, fun hmem hdue => ?_⟩
  · have hstays : entryAt t Config.params.ioCell = some e := by
      rw [hentry]
      split
      next hmem =>
        have hlt := hkept.resolve_left (not_not.mpr hmem)
        simp [isDue, hlt]
      next => rfl
    refine ⟨hstays, fun c => ?_, fun hdue => ?_⟩
    · rw [logicalAt_of_entry hstays, done.byte]
    · have hlater : s.cycle ≤ t.cycle := by
        rw [BitVec.le_def, done.cycle]
        omega
      rw [logicalValue, logicalAt_of_due hstays (isDue_mono hlater (decide_eq_true hdue)), done.byte]
  · have hgone : entryAt t Config.params.ioCell = none := by
      rw [hentry, if_pos hmem]
      simp [isDue, hdue]
    exact ⟨hgone, fun c => (logicalAt_of_none c hgone).trans done.byte⟩

/-- Settles O54: with the byte supplied the same instruction executes, and takes it. -/
theorem aSuppliedByteLiftsTheHold : Obligations.ASuppliedByteLiftsTheHold := by
  intro s i b hrun hip hf hi hdst hin hend hc
  have hexec := executes_supplied b hrun hip hf hi hdst
  have hdst' := (destination_supplied b s i).trans hdst
  rw [hostEvent_supply_empty b hin hend]
  obtain ⟨t, ht, effect⟩ := hexec.trigger_completes hdst' (.inl rfl) hc
  obtain ⟨c, done⟩ := effect.inputDone hdst'
  obtain ⟨rfl, hempty⟩ := done.of_waiting (b := b) (rest := []) rfl
  exact ⟨t, ht, done.inHist, hempty, done.byte, done.flag⟩
end
